-- ==== Sys2Proof/Word.lean ====
section
/-! DEFINITION. The word types of the core, the mode flags of an instruction byte and the names of the two stacks.
Numbers are unsigned (00_scope.md, section 5). -/

namespace Sys2Proof

/-- `byte`: an 8-bit unsigned value (00_scope.md, section 5). -/
abbrev Byte := BitVec 8

/-- `short`: a 16-bit unsigned value (00_scope.md, section 5). -/
abbrev Short := BitVec 16

/-- A RAM bank number, 0 to 15 (00_scope.md R6; 92_eei_decisions.md D24). -/
abbrev Bank := BitVec 4

/-- The two stacks (10_state.md R20). -/
inductive StackSel where
  /-- the work stack `WST` -/
  | work
  /-- the return stack `RST` -/
  | ret
deriving DecidableEq, Repr, Inhabited

/-- The three independent mode flags of a base operation's byte (30_encoding.md R80). -/
structure Mode where
  /-- bit 7, keep mode -/
  keep  : Bool
  /-- bit 6, return mode -/
  ret   : Bool
  /-- bit 5, short mode -/
  short : Bool
deriving DecidableEq, Repr, Inhabited

end Sys2Proof
end

