-- ==== Sys2Proof/Syntax.lean ====
section
/-! DEFINITION. The instructions: one constructor for each row of spec/opcode_table.json (30_encoding.md R83, R85).
The immediate group carries the bytes that follow the opcode byte (30_encoding.md R86, R87); a base operation carries
its three mode flags (R84). -/

namespace Sys2Proof

/-- An instruction: the eight of the immediate group (30_encoding.md R83), then the 31 base operations in the order of
their numbers 0x01 to 0x1F (R85). -/
inductive Instr where
  -- immediate group
  | brk
  | jci (disp : Short)
  | jmi (disp : Short)
  | jsi (disp : Short)
  | lit (b : Byte)
  | lit2 (v : Short)
  | litr (b : Byte)
  | lit2r (v : Short)
  -- stack operations
  | inc (m : Mode)
  | pop (m : Mode)
  | nip (m : Mode)
  | swp (m : Mode)
  | rot (m : Mode)
  | dup (m : Mode)
  | ovr (m : Mode)
  -- comparisons
  | equ (m : Mode)
  | neq (m : Mode)
  | gth (m : Mode)
  | lth (m : Mode)
  -- control transfer and stack transfer
  | jmp (m : Mode)
  | jcn (m : Mode)
  | jsr (m : Mode)
  | sth (m : Mode)
  -- loads, stores and device access
  | ldz (m : Mode)
  | stz (m : Mode)
  | ldr (m : Mode)
  | str (m : Mode)
  | lda (m : Mode)
  | sta (m : Mode)
  | dei (m : Mode)
  | deo (m : Mode)
  -- arithmetic and logic
  | add (m : Mode)
  | sub (m : Mode)
  | mul (m : Mode)
  | div (m : Mode)
  | and (m : Mode)
  | ora (m : Mode)
  | eor (m : Mode)
  | sft (m : Mode)
deriving DecidableEq, Repr, Inhabited

end Sys2Proof
end

