-- ==== Sys2Proof/Machine/State.lean ====
section
/-! DEFINITION. The state of the core (10_state.md section 1), the calls of its outside (60_exceptions.md R249), the
reasons a step can stop, and the state after construction. State is plain data. -/

namespace Sys2Proof.Machine

/-- One stack: "a fixed 256-byte circular buffer with an 8-bit cursor" (10_state.md R20, R21). -/
structure Stack where
  dat : Vector Byte 256
  ptr : Byte
deriving DecidableEq, Repr

/-- General RAM as (key, byte) pairs, the key of `(bank, offset)` being `bank * 65536 + offset` (20_memory.md R51), in
the canonical form of `Memory.wf` (Machine/Memory.lean): keys strictly rising, no byte listed that equals what an
unlisted key reads as. -/
abbrev Memory := List Host.Cell

/-- What remains of an instruction that is suspended at an intercept (10_state.md R38; 45_memory_device.md R206, R207). -/
inductive Suspended where
  /-- `OutIntercept(addr)` is in progress and nothing of the DEO remains -/
  | outByte (addr : Byte)
  /-- `OutIntercept(addr)` of a DEO2's high byte is in progress; `low` is still to be written at `lowAddr` -/
  | outHigh (addr low lowAddr : Byte)
  /-- `InIntercept(addr)` of a byte DEI is asked; the push onto `dest` is still to be done -/
  | inByte (addr : Byte) (dest : StackSel)
  /-- `InIntercept(addr)` of a DEI2's high byte is asked -/
  | inHigh (addr : Byte) (dest : StackSel)
  /-- the high byte `hi` of a DEI2 is received and `InIntercept(addr)` of its low byte is asked -/
  | inLow (addr hi : Byte) (dest : StackSel)
deriving DecidableEq, Repr

/-- An activation record: one evaluation in progress (10_state.md R32, R38). -/
structure Activation where
  pc   : Short
  susp : Option Suspended := none
deriving DecidableEq, Repr

/-- A call that comes from outside the core: the host's while no evaluation runs, a device handler's while an output
intercept is in progress (60_exceptions.md R248, R249, R250). -/
inductive PortCall where
  /-- inside an output intercept: the handler returns (40_eval_loop.md R112); outside: the host makes no call yet (R261) -/
  | done
  /-- `Evaluate(v)` (40_eval_loop.md R100; nested inside an intercept, R111) -/
  | evaluate (v : Short)
  /-- destroy the machine (60_exceptions.md R249) -/
  | destroy
  /-- `LoadImage(img)` (70_reset_and_hazards.md R275) -/
  | loadImage (img : List Byte)
  /-- `HardReset(img)` (70_reset_and_hazards.md R270) -/
  | hardReset (img : List Byte)
  /-- `SoftReset(img)` (70_reset_and_hazards.md R271) -/
  | softReset (img : List Byte)
  /-- `BankRead(bank, off, n)`, `n` = 2 when `short` (20_memory.md R55) -/
  | bankRead (short : Bool) (bank : Bank) (off : Short)
  /-- `BankWrite(bank, off, n, v)` (20_memory.md R55) -/
  | bankWrite (short : Bool) (bank : Bank) (off : Short) (v : Short)
  /-- `DevRead(a8)` or `DevRead2(a8)`, no intercept (20_memory.md R60) -/
  | devRead (short : Bool) (a : Byte)
  /-- `DevWrite(a8, b)` or `DevWrite2(a8, v)`, no intercept (20_memory.md R60) -/
  | devWrite (short : Bool) (a : Byte) (v : Short)
  /-- `bulk_load(bytes, bank, offset)` (20_memory.md R68) -/
  | bulkLoad (src : List Byte) (bank : Bank) (off : Short)
  /-- `zero(preserve_low_region)` (20_memory.md R69) -/
  | zero (preserve : Bool)
  /-- `dev_zero()` (20_memory.md R70) -/
  | devZero
  /-- stack `get_pointer()` (10_state.md R28) -/
  | getPointer (sel : StackSel)
  /-- stack `set_pointer(p)` (10_state.md R28) -/
  | setPointer (sel : StackSel) (p : Byte)
  /-- stack `peek(offset)` (10_state.md R28) -/
  | peek (sel : StackSel) (offset : Byte)
  /-- stack push of a byte or a short (10_state.md R25, R26) -/
  | push (sel : StackSel) (short : Bool) (v : Short)
  /-- stack pop of a byte or a short (10_state.md R25, R26) -/
  | pop (sel : StackSel) (short : Bool)
  /-- zero both stacks (60_exceptions.md R249: "snapshot/zero RAM and stacks"; 10_state.md R24; log entry 35) -/
  | zeroStacks
  /-- snapshot RAM (60_exceptions.md R249) -/
  | snapshot
  /-- snapshot both stacks (60_exceptions.md R249: "snapshot/zero RAM and stacks"; log entry 35) -/
  | snapshotStacks
deriving DecidableEq, Repr, Inhabited

/-- The model-level faults (60_exceptions.md R241: "exactly one fault"). -/
inductive Fault where
  /-- Raised by `Evaluate`, called by the host or by a device handler, when `ACT` already holds `MAX_NEST` activations
  (40_eval_loop.md R113); `step` answers it in every state that carries the mark (10_state.md R45). Safe: the machine
  stops where the source's implementation would exhaust its call stack. -/
  | nestOverflow
deriving DecidableEq, Repr

/-- Why a step has no next state although nothing faulted. -/
inductive Refusal where
  /-- Raised by an arm of `exec` for an instruction that has no meaning yet. Safe. No arm raises it now. -/
  | notModelled (mnemonic : String)
  /-- Raised by a meaning that needs the program counter when no evaluation is running, where there is none
  (10_state.md R43). `step` never runs an instruction in such a state. Safe. -/
  | noActivation
  /-- Raised by `step` when the outside destroys the machine: "no state survives" (60_exceptions.md R249). Safe. -/
  | destroyed
deriving DecidableEq, Repr

/-- The state of the machine. The first six fields are the spec's whole state vector (10_state.md section 1); the last
three are the model's own, plain data through which the outside acts (log entries 3, 4 and 5). -/
structure State where
  /-- `WST` (10_state.md R20) -/
  wst    : Stack
  /-- `RST` (10_state.md R20) -/
  rst    : Stack
  /-- `RAM` (20_memory.md R51) -/
  ram    : Memory
  /-- `DEV` (20_memory.md R59) -/
  dev    : Vector Byte 256
  /-- `ACT`, the top activation first (10_state.md R32) -/
  act    : List Activation
  /-- the fault mark (10_state.md R45) -/
  fault  : Option Fault
  /-- the model's own: answers of `InIntercept` that are already fixed, the next one first -/
  inputs : List Byte
  /-- the model's own: calls of the outside that are already fixed, the next one first -/
  calls  : List PortCall
  /-- the model's own: how many free values have been drawn -/
  draws  : Nat
deriving DecidableEq, Repr

/-- A zeroed stack (10_state.md R24). -/
def Stack.zeroed : Stack := { dat := Vector.replicate 256 0, ptr := 0 }

/-- The machine right after construction (70_reset_and_hazards.md R272; 10_state.md R42): both stacks, all RAM and the
whole device file zero, no activation, no fault. The model's own fields start empty (log entry 5). -/
def State.reset : State :=
  { wst := Stack.zeroed, rst := Stack.zeroed, ram := [], dev := Vector.replicate 256 0,
    act := [], fault := none, inputs := [], calls := [], draws := 0 }

/-- What a step answers. -/
abbrev Result := Host.Outcome State Fault Refusal

end Sys2Proof.Machine
end

