-- ==== Sys2Proof/Config.lean ====
section
/-! DEFINITION. The parameters of the core (00_scope.md R6, R7): its fixed numbers, and the three values the source
leaves open, as constants without a body. -/

namespace Sys2Proof.Config

/-- `BANK_BYTES` (00_scope.md R6). -/
def bankBytes : Nat := 65536

/-- The bytes of general RAM: 16 banks (00_scope.md R6; 20_memory.md R51). -/
def ramBytes : Nat := 16 * bankBytes

/-- `RESET_VECTOR` (00_scope.md R6; 70_reset_and_hazards.md R276). -/
def resetVector : Short := 0x0100

/-- The size of the region a soft reset preserves: the bytes below the reset vector (20_memory.md R69). -/
def lowBytes : Nat := 0x0100

/-- `MAX_NEST - 1`, open (00_scope.md R7; 92_eei_decisions.md D12). -/
opaque extraNest : Nat

/-- `MAX_NEST`, at least 1 (10_state.md R33). -/
def maxNest : Nat := extraNest + 1

/-- `InIntercept : State -> Byte -> Choice -> Byte` (92_eei_decisions.md D9), open: any byte, a function of the state,
the device address and an external choice (60_exceptions.md R243). -/
opaque inIntercept : Machine.State → Byte → Nat → Byte

/-- The next call that the output handler of a device address makes, open (60_exceptions.md R244, R248;
92_eei_decisions.md D10). -/
opaque outIntercept : Machine.State → Byte → Nat → Machine.PortCall

/-- The next call of the host while no evaluation runs, open (60_exceptions.md R249, R253). -/
opaque hostCall : Machine.State → Nat → Machine.PortCall

end Sys2Proof.Config
end

