-- ==== Sys2Proof/WellFormed.lean ====
section
/-! DEFINITION. Well-formedness. Every field of an instruction has exactly the width of its field in the encoding, and
every value of every field is legal (30_encoding.md R84, R90: "no illegal, reserved, undefined or hint encodings"), so
the types already refuse every ill-formed instruction and the check below has nothing left to refuse. What can be
ill-formed is a string of bytes offered as one instruction: that check is `oneInstruction` in Decode.lean (R86). -/

namespace Sys2Proof

/-- Well-formedness of an instruction: the types carry all of it (30_encoding.md R90). -/
def Instr.wellFormed : Instr → Bool
  | .brk => true
  | .jci _ | .jmi _ | .jsi _ => true
  | .lit _ | .lit2 _ | .litr _ | .lit2r _ => true
  | .inc _ | .pop _ | .nip _ | .swp _ | .rot _ | .dup _ | .ovr _ => true
  | .equ _ | .neq _ | .gth _ | .lth _ => true
  | .jmp _ | .jcn _ | .jsr _ | .sth _ => true
  | .ldz _ | .stz _ | .ldr _ | .str _ | .lda _ | .sta _ | .dei _ | .deo _ => true
  | .add _ | .sub _ | .mul _ | .div _ | .and _ | .ora _ | .eor _ | .sft _ => true

end Sys2Proof
end

