-- ==== Sys2Proof/Decode.lean ====
section
/-! DEFINITION. Byte order and extension helpers, the decoder (30_encoding.md R80 to R87, R92) and the encoder written
from the same tables. Every one of the 256 opcode bytes decodes (R90, R95); a string of bytes that ends inside an
instruction is rejected by name. -/

namespace Sys2Proof

/-! ### Byte order (20_memory.md R61) and extension (00_scope.md, section 5) -/

/-- `v[15:8]`. -/
def hiByte (v : Short) : Byte := v.extractLsb' 8 8

/-- `v[7:0]`, that is `trunc_8(v)`. -/
def loByte (v : Short) : Byte := v.extractLsb' 0 8

/-- `hi ++ lo`: big-endian, the high byte first (20_memory.md R61). -/
def shortOf (hi lo : Byte) : Short := hi ++ lo

/-- `zext_16(b)`. -/
def zextByte (b : Byte) : Short := b.setWidth 16

/-- `sext_16(b)`. -/
def sextByte (b : Byte) : Short := b.signExtend 16

/-! ### Fields of the opcode byte (30_encoding.md R80) -/

/-- `keep_mode = bit7`, `return_mode = bit6`, `short_mode = bit5`. -/
def modeOf (op : Byte) : Mode :=
  { keep := op.getLsbD 7, ret := op.getLsbD 6, short := op.getLsbD 5 }

/-- `base_op = bits[4:0]`. -/
def baseOf (op : Byte) : BitVec 5 := op.extractLsb' 0 5

/-! ### Decoder -/

/-- How many bytes follow an opcode byte in its instruction: 2 for 0x20, 0x40, 0x60, 0xA0 and 0xE0, 1 for 0x80 and
0xC0, else 0 (30_encoding.md R86). -/
def operandBytes (op : Byte) : Nat :=
  match op with
  | 0x20#8 | 0x40#8 | 0x60#8 | 0xA0#8 | 0xE0#8 => 2
  | 0x80#8 | 0xC0#8 => 1
  | _ => 0

/-- A string of bytes is one whole instruction: an opcode byte and exactly the bytes it calls for (30_encoding.md R86). -/
def oneInstruction : List Byte → Bool
  | [] => false
  | op :: rest => rest.length == operandBytes op

/-- The base operation numbered `n` (30_encoding.md R85), for `n` in 0x01 to 0x1F. -/
def decodeBase (n : Nat) (m : Mode) : Instr :=
  match n with
  | 0x01 => .inc m
  | 0x02 => .pop m
  | 0x03 => .nip m
  | 0x04 => .swp m
  | 0x05 => .rot m
  | 0x06 => .dup m
  | 0x07 => .ovr m
  | 0x08 => .equ m
  | 0x09 => .neq m
  | 0x0A => .gth m
  | 0x0B => .lth m
  | 0x0C => .jmp m
  | 0x0D => .jcn m
  | 0x0E => .jsr m
  | 0x0F => .sth m
  | 0x10 => .ldz m
  | 0x11 => .stz m
  | 0x12 => .ldr m
  | 0x13 => .str m
  | 0x14 => .lda m
  | 0x15 => .sta m
  | 0x16 => .dei m
  | 0x17 => .deo m
  | 0x18 => .add m
  | 0x19 => .sub m
  | 0x1A => .mul m
  | 0x1B => .div m
  | 0x1C => .and m
  | 0x1D => .ora m
  | 0x1E => .eor m
  | _    => .sft m

/-- The instruction at an opcode byte and the two bytes after it. The immediate group is keyed on the entire byte and
takes priority over the base dispatch (30_encoding.md R82, R83, R92); the 16-bit immediates are big-endian (R87). The
bytes after the opcode that the instruction does not have are not looked at (R86). -/
def decodeOp (op b1 b2 : Byte) : Instr :=
  match op with
  | 0x00#8 => .brk
  | 0x20#8 => .jci (shortOf b1 b2)
  | 0x40#8 => .jmi (shortOf b1 b2)
  | 0x60#8 => .jsi (shortOf b1 b2)
  | 0x80#8 => .lit b1
  | 0xA0#8 => .lit2 (shortOf b1 b2)
  | 0xC0#8 => .litr b1
  | 0xE0#8 => .lit2r (shortOf b1 b2)
  | _      => decodeBase (baseOf op).toNat (modeOf op)

/-- Why a string of bytes is no instruction. No opcode byte is illegal (30_encoding.md R90), so only its end can be
missing. -/
inductive DecodeError where
  /-- no byte at all -/
  | noBytes
  /-- the string ends inside the immediate of its first instruction -/
  | truncated
deriving DecidableEq, Repr

/-- Decode the first instruction of a string of bytes, and give the rest of the string. -/
def decode : List Byte → Except DecodeError (Instr × List Byte)
  | [] => .error .noBytes
  | op :: rest =>
    match operandBytes op, rest with
    | 0, rest => .ok (decodeOp op 0 0, rest)
    | 1, b1 :: rest => .ok (decodeOp op b1 0, rest)
    | 2, b1 :: b2 :: rest => .ok (decodeOp op b1 b2, rest)
    | _, _ => .error .truncated

/-! ### Encoder -/

/-- The opcode byte of a base operation: `[keep:1][return:1][short:1][opcode:5]` (30_encoding.md R80). -/
def opByte (m : Mode) (base : BitVec 5) : Byte :=
  BitVec.ofBool m.keep ++ BitVec.ofBool m.ret ++ BitVec.ofBool m.short ++ base

/-- The bytes of an instruction (30_encoding.md R83, R85, R86, R87). -/
def encode : Instr → List Byte
  | .brk     => [0x00]
  | .jci d   => [0x20, hiByte d, loByte d]
  | .jmi d   => [0x40, hiByte d, loByte d]
  | .jsi d   => [0x60, hiByte d, loByte d]
  | .lit b   => [0x80, b]
  | .lit2 v  => [0xA0, hiByte v, loByte v]
  | .litr b  => [0xC0, b]
  | .lit2r v => [0xE0, hiByte v, loByte v]
  | .inc m   => [opByte m 0x01]
  | .pop m   => [opByte m 0x02]
  | .nip m   => [opByte m 0x03]
  | .swp m   => [opByte m 0x04]
  | .rot m   => [opByte m 0x05]
  | .dup m   => [opByte m 0x06]
  | .ovr m   => [opByte m 0x07]
  | .equ m   => [opByte m 0x08]
  | .neq m   => [opByte m 0x09]
  | .gth m   => [opByte m 0x0A]
  | .lth m   => [opByte m 0x0B]
  | .jmp m   => [opByte m 0x0C]
  | .jcn m   => [opByte m 0x0D]
  | .jsr m   => [opByte m 0x0E]
  | .sth m   => [opByte m 0x0F]
  | .ldz m   => [opByte m 0x10]
  | .stz m   => [opByte m 0x11]
  | .ldr m   => [opByte m 0x12]
  | .str m   => [opByte m 0x13]
  | .lda m   => [opByte m 0x14]
  | .sta m   => [opByte m 0x15]
  | .dei m   => [opByte m 0x16]
  | .deo m   => [opByte m 0x17]
  | .add m   => [opByte m 0x18]
  | .sub m   => [opByte m 0x19]
  | .mul m   => [opByte m 0x1A]
  | .div m   => [opByte m 0x1B]
  | .and m   => [opByte m 0x1C]
  | .ora m   => [opByte m 0x1D]
  | .eor m   => [opByte m 0x1E]
  | .sft m   => [opByte m 0x1F]

/-! ### The host's view of a table row's word -/

/-- Byte `k` of an instruction whose bits are `w` (the first byte is bits 7 to 0, the second bits 15 to 8, and so on),
every bit from `nbits` up being 0. -/
def tableByte (nbits w k : Nat) : Byte := BitVec.ofNat 8 ((w % 2 ^ nbits) >>> (8 * k))

/-- The instruction the decoder reads from a word of the opcode table; the longest instruction has three bytes
(30_encoding.md R86). -/
def decodeTableWord (nbits w : Nat) : Option Instr :=
  match decode [tableByte nbits w 0, tableByte nbits w 1, tableByte nbits w 2] with
  | .ok (i, _) => some i
  | .error _ => none

end Sys2Proof
end

