-- ==== Sys2Proof/Machine/Memory.lean ====
section
/-! DEFINITION. General RAM (20_memory.md): one byte, the canonical form, the access primitives of R53 to R58, and the
bulk operations of R68 and R69. -/

namespace Sys2Proof.Machine

/-- What a byte of RAM that nothing has written reads as: 0x00 (70_reset_and_hazards.md R272; log entry 1). -/
def Memory.unlisted : Byte := 0

/-- The canonical form from a lower bound on: keys strictly rising, inside the address space, no listed byte equal to
`unlisted`. -/
def Memory.wfFrom (lo : Nat) : Memory → Bool
  | [] => true
  | (k, v) :: rest => lo ≤ k && k < Config.ramBytes && v != unlisted && wfFrom (k + 1) rest

/-- The canonical form of RAM. -/
def Memory.wf (m : Memory) : Bool := wfFrom 0 m

/-- One byte of RAM by its linear index (20_memory.md R51). -/
def Memory.read : Memory → Nat → Byte
  | [], _ => unlisted
  | (k, v) :: rest, a => if a = k then v else read rest a

/-- Write one byte by its linear index, keeping the canonical form. -/
def Memory.write : Memory → Nat → Byte → Memory
  | [], a, b => if b = unlisted then [] else [(a, b)]
  | (k, v) :: rest, a, b =>
    if a < k then if b = unlisted then (k, v) :: rest else (a, b) :: (k, v) :: rest
    else if a = k then if b = unlisted then rest else (a, b) :: rest
    else (k, v) :: write rest a b

/-- The linear index of `(bank, offset)`: `bank[3:0] ++ offset[15:0]` (20_memory.md R51). -/
def ramKey (bank : Bank) (off : Short) : Nat := bank.toNat * Config.bankBytes + off.toNat

/-- `read_byte(bank, offset)` (20_memory.md R55). -/
def bankRead1 (m : Memory) (bank : Bank) (off : Short) : Byte := m.read (ramKey bank off)

/-- `write_byte(bank, offset, value)` (20_memory.md R55). -/
def bankWrite1 (m : Memory) (bank : Bank) (off : Short) (b : Byte) : Memory := m.write (ramKey bank off) b

/-- `BankRead(bank, off, n)`: `n` = 2 when `short`, big-endian, the second offset wrapped inside the bank
(20_memory.md R53, R55). -/
def bankRead (m : Memory) (short : Bool) (bank : Bank) (off : Short) : Short :=
  if short then shortOf (bankRead1 m bank off) (bankRead1 m bank (off + 1))
  else zextByte (bankRead1 m bank off)

/-- `BankWrite(bank, off, n, v)` (20_memory.md R54, R55). -/
def bankWrite (m : Memory) (short : Bool) (bank : Bank) (off : Short) (v : Short) : Memory :=
  if short then bankWrite1 (bankWrite1 m bank off (hiByte v)) bank (off + 1) (loByte v)
  else bankWrite1 m bank off (loByte v)

/-- `MemRead(addr, n)`: bank 0 (20_memory.md R52, R53). -/
def memRead (m : Memory) (short : Bool) (addr : Short) : Short := bankRead m short 0 addr

/-- `MemRead(addr, 1)` as a byte: an instruction byte (20_memory.md R64). -/
def memRead1 (m : Memory) (addr : Short) : Byte := bankRead1 m 0 addr

/-- `MemWrite(addr, n, v)`: bank 0 (20_memory.md R52, R54). -/
def memWrite (m : Memory) (short : Bool) (addr : Short) (v : Short) : Memory := bankWrite m short 0 addr v

/-- `ZpRead(a8, n)`: the second byte's address wraps inside the zero page (20_memory.md R57; decision D5, log entry 14). -/
def zpRead (m : Memory) (short : Bool) (a : Byte) : Short :=
  if short then shortOf (memRead1 m (zextByte a)) (memRead1 m (zextByte (a + 1)))
  else zextByte (memRead1 m (zextByte a))

/-- `ZpWrite(a8, n, v)` (20_memory.md R57). -/
def zpWrite (m : Memory) (short : Bool) (a : Byte) (v : Short) : Memory :=
  if short then
    bankWrite1 (bankWrite1 m 0 (zextByte a) (hiByte v)) 0 (zextByte (a + 1)) (loByte v)
  else bankWrite1 m 0 (zextByte a) (loByte v)

/-- `RelAddr(pc, d8)`: the advanced pc plus the sign-extended displacement, modulo 65536 (20_memory.md R58). -/
def relAddr (pc : Short) (d : Byte) : Short := pc + sextByte d

/-- Bytes copied one after another into a bank, from an offset up. -/
def copyBytes (m : Memory) (bank : Bank) (off : Short) : List Byte → Memory
  | [] => m
  | b :: rest => copyBytes (bankWrite1 m bank off b) bank (off + 1) rest

/-- `bulk_load(bytes, bank, offset)`: the copy is cut where the bank ends (20_memory.md R68). -/
def bulkLoad (m : Memory) (src : List Byte) (bank : Bank) (off : Short) : Memory :=
  copyBytes m bank off (src.take (Config.bankBytes - off.toNat))

/-- `zero(preserve_low_region)` (20_memory.md R69). -/
def zeroRam (m : Memory) (preserve : Bool) : Memory :=
  if preserve then m.filter (fun c => c.1 < Config.lowBytes) else []

/-- The banks 1 to 15 of a boot image, each a whole 65536-byte chunk after the first 0xFF00 bytes
(70_reset_and_hazards.md R275). -/
def loadBanks (img : List Byte) : List Nat → Memory → Memory
  | [], m => m
  | i :: rest, m =>
    loadBanks img rest
      (bulkLoad m ((img.drop (0xFF00 + (i - 1) * Config.bankBytes)).take Config.bankBytes) (BitVec.ofNat 4 i) 0)

/-- `LoadImage(img)`: the first 0xFF00 bytes at the reset vector of bank 0, then banks 1 to 15, the rest not loaded
(70_reset_and_hazards.md R275; decision D16, log entry 17). -/
def loadImage (m : Memory) (img : List Byte) : Memory :=
  loadBanks img [1, 2, 3, 4, 5, 6, 7, 8, 9, 10, 11, 12, 13, 14, 15]
    (bulkLoad m (img.take 0xFF00) 0 Config.resetVector)

end Sys2Proof.Machine
end

