-- ==== Sys2Proof/Machine/Ops.lean ====
section
/-! DEFINITION. The named operations over the stacks (10_state.md R25 to R29), the device file (20_memory.md R60, R70),
the activations (10_state.md R30 to R33), starting and ending an evaluation (the analogue of taking an exception and
returning from one, 60_exceptions.md R254, R255), fetching an instruction, and the two resets. -/

namespace Sys2Proof

/-- The active stack `S` of a base operation (40_eval_loop.md R104). -/
def Mode.active (m : Mode) : StackSel := if m.ret then .ret else .work

/-- The other stack; the opposite stack `O` is the other one of the active stack (40_eval_loop.md R104). -/
def StackSel.other : StackSel → StackSel
  | .work => .ret
  | .ret => .work

/-- The opposite stack `O` of a base operation (40_eval_loop.md R104). -/
def Mode.opposite (m : Mode) : StackSel := m.active.other

namespace Machine

/-! ### One stack -/

/-- The cell of a stack at an index. -/
def Stack.cell (S : Stack) (i : Byte) : Byte := S.dat[i.toNat]'i.isLt

/-- `Push1(S, b)` (10_state.md R25); the pointer wraps silently (R29). -/
def Stack.push1 (S : Stack) (b : Byte) : Stack :=
  { dat := S.dat.set S.ptr.toNat b S.ptr.isLt, ptr := S.ptr + 1 }

/-- `Pop1(S)`: the cell is not cleared (10_state.md R25). -/
def Stack.pop1 (S : Stack) : Byte × Stack :=
  (S.cell (S.ptr - 1), { S with ptr := S.ptr - 1 })

/-- `Push2(S, v)`: the high byte first (10_state.md R26). -/
def Stack.push2 (S : Stack) (v : Short) : Stack := (S.push1 (hiByte v)).push1 (loByte v)

/-- `Pop2(S)` (10_state.md R26). -/
def Stack.pop2 (S : Stack) : Short × Stack :=
  let (lo, S1) := S.pop1
  let (hi, S2) := S1.pop1
  (shortOf hi lo, S2)

/-- `PushW(S, v)`: a short when `short`, else `trunc_8(v)` (10_state.md R27). -/
def Stack.pushW (S : Stack) (short : Bool) (v : Short) : Stack :=
  if short then S.push2 v else S.push1 (loByte v)

/-- `PopW(S)`, a byte zero-extended (10_state.md R27). -/
def Stack.popW (S : Stack) (short : Bool) : Short × Stack :=
  if short then S.pop2
  else
    let (b, S1) := S.pop1
    (zextByte b, S1)

/-- `peek(offset)`: offset 0 is the top (10_state.md R28). -/
def Stack.peek (S : Stack) (offset : Byte) : Byte := S.cell (S.ptr - 1 - offset)

/-- `set_pointer(p)` (10_state.md R28); the keep restore (40_eval_loop.md R105). -/
def Stack.setPtr (S : Stack) (p : Byte) : Stack := { S with ptr := p }

/-! ### The two stacks of a state -/

/-- The stack of a name. -/
def State.stack (s : State) : StackSel → Stack
  | .work => s.wst
  | .ret => s.rst

/-- Replace the stack of a name. -/
def State.setStack (s : State) (sel : StackSel) (S : Stack) : State :=
  match sel with
  | .work => { s with wst := S }
  | .ret => { s with rst := S }

/-- `Push1` onto a named stack. -/
def State.pushByte (s : State) (sel : StackSel) (b : Byte) : State := s.setStack sel ((s.stack sel).push1 b)

/-- `PushW` onto a named stack. -/
def State.pushW (s : State) (sel : StackSel) (short : Bool) (v : Short) : State :=
  s.setStack sel ((s.stack sel).pushW short v)

/-- Both stacks zeroed (10_state.md R24). -/
def State.zeroStacks (s : State) : State := { s with wst := Stack.zeroed, rst := Stack.zeroed }

/-! ### Memory and the device file -/

/-- Replace RAM. -/
def State.setRam (s : State) (m : Memory) : State := { s with ram := m }

/-- `DevRead(a8)` (20_memory.md R60). -/
def State.devRead1 (s : State) (a : Byte) : Byte := s.dev[a.toNat]'a.isLt

/-- `DevWrite(a8, b)`: no intercept (20_memory.md R60). -/
def State.devWrite1 (s : State) (a : Byte) (b : Byte) : State := { s with dev := s.dev.set a.toNat b a.isLt }

/-- `DevRead(a8)` or `DevRead2(a8)`, wrapping within 256 (20_memory.md R60). -/
def State.devRead (s : State) (short : Bool) (a : Byte) : Short :=
  if short then shortOf (s.devRead1 a) (s.devRead1 (a + 1)) else zextByte (s.devRead1 a)

/-- `DevWrite(a8, b)` or `DevWrite2(a8, v)` (20_memory.md R60). -/
def State.devWrite (s : State) (short : Bool) (a : Byte) (v : Short) : State :=
  if short then (s.devWrite1 a (hiByte v)).devWrite1 (a + 1) (loByte v) else s.devWrite1 a (loByte v)

/-- `dev_zero()` (20_memory.md R70). -/
def State.devZero (s : State) : State := { s with dev := Vector.replicate 256 0 }

/-! ### Activations -/

/-- Run a meaning that needs the program counter with the top activation's `pc` (10_state.md R32). Outside any
evaluation there is none (R43; log entry 25). -/
def running (s : State) (k : Short → Result) : Result :=
  match s.act with
  | [] => .refused .noActivation
  | a :: _ => k a.pc

/-- `pc <- target` of the top activation (10_state.md R30). -/
def State.setPc (s : State) (pc : Short) : State :=
  match s.act with
  | [] => s
  | a :: rest => { s with act := { a with pc := pc } :: rest }

/-- The suspended-instruction record of the top activation is set or cleared (10_state.md R38). -/
def State.setSusp (s : State) (r : Option Suspended) : State :=
  match s.act with
  | [] => s
  | a :: rest => { s with act := { a with susp := r } :: rest }

/-- `Evaluate(v)`, the start of an evaluation, nested or not: a new record on `ACT`, and nothing else is saved; at
depth `MAX_NEST` the fault mark (40_eval_loop.md R100, R113; 60_exceptions.md R241, R254). -/
def State.evaluate (s : State) (v : Short) : State :=
  if s.act.length < Config.maxNest then { s with act := { pc := v } :: s.act }
  else { s with fault := some .nestOverflow }

/-- The halt of the top activation, the return from an evaluation: its record goes, nothing is restored
(40_eval_loop.md R101; 60_exceptions.md R255). -/
def State.halt (s : State) : State := { s with act := s.act.tail }

/-! ### Fetch -/

/-- The instruction at an address of bank 0: its opcode byte and, where the opcode calls for them, the bytes after it,
offsets modulo 65536 (20_memory.md R64; 30_encoding.md R87; 40_eval_loop.md R102). -/
def fetch (m : Memory) (pc : Short) : Instr :=
  decodeOp (memRead1 m pc) (memRead1 m (pc + 1)) (memRead1 m (pc + 2))

/-! ### Resets -/

/-- `HardReset(image)` (70_reset_and_hazards.md R270). It does not touch `ACT` (R283) or the fault mark (R274). -/
def State.hardReset (s : State) (img : List Byte) : State :=
  ((s.setRam (loadImage (zeroRam s.ram false) img)).devZero).zeroStacks

/-- `SoftReset(image)`: only the zero page survives (70_reset_and_hazards.md R271). -/
def State.softReset (s : State) (img : List Byte) : State :=
  ((s.setRam (loadImage (zeroRam s.ram true) img)).devZero).zeroStacks

end Machine

end Sys2Proof
end

