-- ==== Sys2Proof/Machine/Bus.lean ====
section
/-! DEFINITION. The outside of the core: the two intercepts of the device bus (60_exceptions.md R242 to R248) and the
host port (R249, R250). What the outside does next is the head of a queue of State, and beyond the queue an
uninterpreted constant of Config applied to the state and to the number of draws (log entries 3, 4, 5). -/

namespace Sys2Proof.Machine

/-! ### The device bus: DEI -/

/-- The answer of `InIntercept(addr)` (60_exceptions.md R243), and the state after it was drawn: the handler changes no
core state (decision D9, log entry 8). -/
def drawInput (s : State) (addr : Byte) : Byte × State :=
  match s.inputs with
  | b :: rest => (b, { s with inputs := rest })
  | [] => (Config.inIntercept s addr s.draws, { s with draws := s.draws + 1 })

/-- The input intercept of a suspended DEI answers: the instruction goes on from its record to its next intercept or to
its push (45_memory_device.md R206). A record of a DEO asks no input. -/
def answerInput (r : Suspended) (s : State) : State :=
  match r with
  | .inByte addr dest =>
    let (b, s1) := drawInput s addr
    (s1.pushByte dest b).setSusp none
  | .inHigh addr dest =>
    let (hi, s1) := drawInput s addr
    s1.setSusp (some (.inLow (addr + 1) hi dest))
  | .inLow addr hi dest =>
    let (lo, s1) := drawInput s addr
    (s1.pushW dest true (shortOf hi lo)).setSusp none
  | .outByte _ | .outHigh _ _ _ => s

/-! ### The device bus: DEO -/

/-- The output handler returns: a byte DEO, or a DEO2 after its second byte, is complete; a DEO2 after its first byte
writes the low byte and calls the intercept for it (45_memory_device.md R207; 40_eval_loop.md R112). With no intercept
in progress nothing happens: the core stays idle (60_exceptions.md R261). -/
def returnFromOutput (s : State) : State :=
  match s.act with
  | [] => s
  | a :: _ =>
    match a.susp with
    | some (.outByte _) => s.setSusp none
    | some (.outHigh _ low lowAddr) => (s.devWrite1 lowAddr low).setSusp (some (.outByte lowAddr))
    | _ => s

/-! ### The host port -/

/-- The next call of the outside: the handler's while an output intercept is in progress at `addr`, else the host's. -/
def drawCall (s : State) (addr : Option Byte) : PortCall × State :=
  match s.calls with
  | c :: rest => (c, { s with calls := rest })
  | [] =>
    ((match addr with
      | some a => Config.outIntercept s a s.draws
      | none => Config.hostCall s s.draws),
     { s with draws := s.draws + 1 })

/-- The effect of a call on the core (60_exceptions.md R249). The reads have none. -/
def applyCall (c : PortCall) (s : State) : Result :=
  match c with
  | .done => .next (returnFromOutput s)
  | .evaluate v => .next (s.evaluate v)
  | .destroy => .refused .destroyed
  | .loadImage img => .next (s.setRam (loadImage s.ram img))
  | .hardReset img => .next (s.hardReset img)
  | .softReset img => .next (s.softReset img)
  | .bankRead _ _ _ => .next s
  | .bankWrite short bank off v => .next (s.setRam (bankWrite s.ram short bank off v))
  | .devRead _ _ => .next s
  | .devWrite short a v => .next (s.devWrite short a v)
  | .bulkLoad src bank off => .next (s.setRam (bulkLoad s.ram src bank off))
  | .zero preserve => .next (s.setRam (zeroRam s.ram preserve))
  | .devZero => .next s.devZero
  | .getPointer _ => .next s
  | .setPointer sel p => .next (s.setStack sel ((s.stack sel).setPtr p))
  | .peek _ _ => .next s
  | .push sel short v => .next (s.pushW sel short v)
  | .pop sel short => .next (s.setStack sel ((s.stack sel).popW short).2)
  | .zeroStacks => .next s.zeroStacks
  | .snapshot => .next s
  | .snapshotStacks => .next s

/-- What a call answers to its caller. -/
inductive PortAnswer where
  | nothing
  | byte (b : Byte)
  | short (v : Short)
  | ram (m : Memory)
  | stacks (wst rst : Stack)
deriving DecidableEq, Repr

/-- A value of the width asked for. -/
def PortAnswer.ofWidth (short : Bool) (v : Short) : PortAnswer := if short then .short v else .byte (loByte v)

/-- The answer of a call in the state it is made in (60_exceptions.md R249; 20_memory.md R55, R60; 10_state.md R28). It
goes to the outside, whose later calls are free anyway, so State does not keep it (log entry 32). -/
def portAnswer (c : PortCall) (s : State) : PortAnswer :=
  match c with
  | .bankRead short bank off => .ofWidth short (bankRead s.ram short bank off)
  | .devRead short a => .ofWidth short (s.devRead short a)
  | .getPointer sel => .byte (s.stack sel).ptr
  | .peek sel offset => .byte ((s.stack sel).peek offset)
  | .pop sel short => .ofWidth short ((s.stack sel).popW short).1
  | .snapshot => .ram s.ram
  | .snapshotStacks => .stacks s.wst s.rst
  | .done | .evaluate _ | .destroy | .loadImage _ | .hardReset _ | .softReset _ | .bankWrite _ _ _ _
  | .devWrite _ _ _ | .bulkLoad _ _ _ | .zero _ | .devZero | .setPointer _ _ | .push _ _ _ | .zeroStacks => .nothing

/-- One move of the outside. -/
def outsideStep (s : State) (addr : Option Byte) : Result :=
  let (c, s1) := drawCall s addr
  applyCall c s1

/-- A step while the top activation is suspended at an intercept (60_exceptions.md R243, R244). -/
def interceptStep (r : Suspended) (s : State) : Result :=
  match r with
  | .outByte addr => outsideStep s (some addr)
  | .outHigh addr _ _ => outsideStep s (some addr)
  | .inByte _ _ => .next (answerInput r s)
  | .inHigh _ _ => .next (answerInput r s)
  | .inLow _ _ _ => .next (answerInput r s)

end Sys2Proof.Machine
end

