-- ==== Sys2Proof/Machine/Operands.lean ====
section
/-! DEFINITION. The operand template of the base operations (40_eval_loop.md R104 to R109) and the operand shapes of
30_encoding.md R89. A shape pops its operands top first and gives them with the deepest first, as the stack pictures
list them (R88). -/

namespace Sys2Proof.Machine

/-- The keep restore: in keep mode the pointer goes back to the snapshot taken before the first pop
(40_eval_loop.md R105; 10_state.md R37). -/
def Stack.restore (keep : Bool) (p0 : Byte) (S : Stack) : Stack := if keep then S.setPtr p0 else S

/-- The head of the template: snapshot, pops, keep restore, in this order and before any effect
(40_eval_loop.md R105, R106). -/
def takeOperands {α : Type} (m : Mode) (pops : Stack → α × Stack) (s : State) : α × State :=
  let S := s.stack m.active
  let (v, S1) := pops S
  (v, s.setStack m.active (S1.restore m.keep S.ptr))

/-! ### Shapes -/

/-- `b:W, a:W`, giving `(a, b)`. -/
def popsWW (short : Bool) (S : Stack) : (Short × Short) × Stack :=
  let (b, S1) := S.popW short
  let (a, S2) := S1.popW short
  ((a, b), S2)

/-- `c:W, b:W, a:W`, giving `(a, b, c)`. -/
def popsWWW (short : Bool) (S : Stack) : (Short × Short × Short) × Stack :=
  let (c, S1) := S.popW short
  let (b, S2) := S1.popW short
  let (a, S3) := S2.popW short
  ((a, b, c), S3)

/-- `t:W, c:byte`, giving `(c, t)` (JCN). -/
def popsWB (short : Bool) (S : Stack) : (Byte × Short) × Stack :=
  let (t, S1) := S.popW short
  let (c, S2) := S1.pop1
  ((c, t), S2)

/-- `a:byte, v:W`, giving `(v, a)` (STZ, STR, DEO, SFT). -/
def popsBW (short : Bool) (S : Stack) : (Short × Byte) × Stack :=
  let (a, S1) := S.pop1
  let (v, S2) := S1.popW short
  ((v, a), S2)

/-- `a:short, v:W`, giving `(v, a)` (STA). -/
def popsSW (short : Bool) (S : Stack) : (Short × Short) × Stack :=
  let (a, S1) := S.pop2
  let (v, S2) := S1.popW short
  ((v, a), S2)

/-! ### Instructions of one shape -/

/-- Pop `a:W`, push one result. -/
def unaryOp (m : Mode) (f : Short → Short) (s : State) : Result :=
  let (a, s1) := takeOperands m (fun S => S.popW m.short) s
  .next (s1.pushW m.active m.short (f a))

/-- Pop `b:W, a:W`, push one `W`-wide result: `trunc_8W` is in the push (46_alu.md R228). -/
def binaryOp (m : Mode) (f : Short → Short → Short) (s : State) : Result :=
  let ((a, b), s1) := takeOperands m (popsWW m.short) s
  .next (s1.pushW m.active m.short (f a b))

/-- The effective target of JMP, JCN and JSR: absolute in short mode, else the advanced pc plus a signed byte
(44_control.md R184; 90_conflicts.md C1). -/
def jumpTarget (short : Bool) (pc t : Short) : Short := if short then t else relAddr pc (loByte t)

end Sys2Proof.Machine
end

