-- ==== Sys2Proof/Machine/Flags.lean ====
section
/-! DEFINITION. The core has no status flags and no condition codes (10_state.md R39). What stands in their place: the
boolean byte that a comparison pushes (43_compare.md R174) and the nonzero test that a conditional branch makes. -/

namespace Sys2Proof.Machine

/-- The "1-byte boolean (0x01/0x00)" (43_compare.md R174). -/
def boolByte (p : Bool) : Byte := if p then 0x01 else 0x00

/-- A condition byte is true when it is not zero, whatever its value (44_control.md R181; 41_immediate.md R131). -/
def condTrue (c : Byte) : Bool := c != 0

/-- Pop `b:W, a:W`, push the boolean byte of a relation of `a` and `b`, one byte even in short mode (43_compare.md R174). -/
def compareOp (m : Mode) (rel : Short → Short → Bool) (s : State) : Result :=
  let ((a, b), s1) := takeOperands m (popsWW m.short) s
  .next (s1.pushByte m.active (boolByte (rel a b)))

end Sys2Proof.Machine
end

