-- ==== Sys2Proof/Machine/Alu.lean ====
section
/-! DEFINITION. Arithmetic and logic (46_alu.md R220 to R228): unsigned, modulo 2^(8W); the deeper operand `a` on the
left (decision D2, log entry 12). A byte operand is held zero-extended, so every operation is taken on 16 bits and the
push truncates to the width. -/

namespace Sys2Proof.Machine

/-- ADD `( a b -- a+b )` (46_alu.md R220). -/
def execAdd (m : Mode) (s : State) : Result := binaryOp m (fun a b => a + b) s

/-- SUB `( a b -- a-b )` (46_alu.md R221). -/
def execSub (m : Mode) (s : State) : Result := binaryOp m (fun a b => a - b) s

/-- MUL `( a b -- a*b )`, the low half (46_alu.md R222). -/
def execMul (m : Mode) (s : State) : Result := binaryOp m (fun a b => a * b) s

/-- DIV `( a b -- a/b )`, and 0 when the divisor is 0 (46_alu.md R223). -/
def execDiv (m : Mode) (s : State) : Result := binaryOp m (fun a b => if b = 0 then 0 else a / b) s

/-- AND `( a b -- a&b )` (46_alu.md R224). -/
def execAnd (m : Mode) (s : State) : Result := binaryOp m (fun a b => a &&& b) s

/-- ORA `( a b -- a|b )` (46_alu.md R225). -/
def execOra (m : Mode) (s : State) : Result := binaryOp m (fun a b => a ||| b) s

/-- EOR `( a b -- a^b )` (46_alu.md R226). -/
def execEor (m : Mode) (s : State) : Result := binaryOp m (fun a b => a ^^^ b) s

/-- `(a >> right) << left`, `right` the low nibble of the control byte and `left` its high nibble, the right shift first
(46_alu.md R227). -/
def shiftBy (c : Byte) (a : Short) : Short := (a >>> (c.extractLsb' 0 4).toNat) <<< (c.extractLsb' 4 4).toNat

/-- SFT `( a c -- r )`: the control byte is one byte whatever the width (46_alu.md R227). -/
def execSft (m : Mode) (s : State) : Result :=
  let ((a, c), s1) := takeOperands m (popsBW m.short) s
  .next (s1.pushW m.active m.short (shiftBy c a))

end Sys2Proof.Machine
end

