-- ==== Sys2Proof/Machine/Compare.lean ====
section
/-! DEFINITION. Comparisons (43_compare.md R170 to R174): unsigned, the deeper operand `a` on the left
(decision D2, log entry 12). -/

namespace Sys2Proof.Machine

/-- EQU `( a b -- a=b )` (43_compare.md R170). -/
def execEqu (m : Mode) (s : State) : Result := compareOp m (fun a b => a == b) s

/-- NEQ `( a b -- a≠b )` (43_compare.md R171). -/
def execNeq (m : Mode) (s : State) : Result := compareOp m (fun a b => a != b) s

/-- GTH `( a b -- a>b )` (43_compare.md R172). -/
def execGth (m : Mode) (s : State) : Result := compareOp m (fun a b => b.ult a) s

/-- LTH `( a b -- a<b )` (43_compare.md R173). -/
def execLth (m : Mode) (s : State) : Result := compareOp m (fun a b => a.ult b) s

end Sys2Proof.Machine
end

