-- ==== Sys2Proof/Machine/Control.lean ====
section
/-! DEFINITION. Control transfer and stack transfer (44_control.md R180 to R185). On entry `pc` is the advanced pc. -/

namespace Sys2Proof.Machine

/-- JMP `( t -- )` (44_control.md R180). -/
def execJmp (m : Mode) (s : State) : Result :=
  running s fun pc =>
    let (t, s1) := takeOperands m (fun S => S.popW m.short) s
    .next (s1.setPc (jumpTarget m.short pc t))

/-- JCN `( c t -- )`: the condition is one byte whatever the width (44_control.md R181). -/
def execJcn (m : Mode) (s : State) : Result :=
  running s fun pc =>
    let ((c, t), s1) := takeOperands m (popsWB m.short) s
    .next (if condTrue c then s1.setPc (jumpTarget m.short pc t) else s1)

/-- JSR `( t -- )`, and the advanced pc as a short onto the opposite stack (44_control.md R182). -/
def execJsr (m : Mode) (s : State) : Result :=
  running s fun pc =>
    let (t, s1) := takeOperands m (fun S => S.popW m.short) s
    .next ((s1.pushW m.opposite true pc).setPc (jumpTarget m.short pc t))

/-- STH `( a -- )`, and `a` onto the opposite stack (44_control.md R183). -/
def execSth (m : Mode) (s : State) : Result :=
  let (a, s1) := takeOperands m (fun S => S.popW m.short) s
  .next (s1.pushW m.opposite m.short a)

end Sys2Proof.Machine
end

