-- ==== Sys2Proof/Machine/Immediate.lean ====
section
/-! DEFINITION. The immediate group (41_immediate.md). On entry the top activation's `pc` is the advanced pc, the
address of the byte after the opcode (10_state.md R31); the group fully owns further pc advancement
(40_eval_loop.md R103). No mode flag applies (30_encoding.md R92). -/

namespace Sys2Proof.Machine

/-- JMI's arithmetic, shared by the three immediate jumps: `trunc_16(pc + 2 + d)` (41_immediate.md R132). -/
def immTarget (pc d : Short) : Short := pc + 2 + d

/-- BRK (41_immediate.md R130): the top activation halts; nothing else changes (40_eval_loop.md R101). -/
def execBrk (s : State) : Result :=
  running s fun _ => .next s.halt

/-- JCI (41_immediate.md R131): the condition byte always comes from the work stack and is never restored. -/
def execJci (d : Short) (s : State) : Result :=
  running s fun pc =>
    let (c, S) := s.wst.pop1
    .next ((s.setStack .work S).setPc (if condTrue c then immTarget pc d else pc + 2))

/-- JMI (41_immediate.md R132). -/
def execJmi (d : Short) (s : State) : Result :=
  running s fun pc => .next (s.setPc (immTarget pc d))

/-- JSI (41_immediate.md R133): the return address is the byte after the instruction, always on the return stack. -/
def execJsi (d : Short) (s : State) : Result :=
  running s fun pc => .next ((s.pushW .ret true (pc + 2)).setPc (immTarget pc d))

/-- LIT (41_immediate.md R134). -/
def execLit (b : Byte) (s : State) : Result :=
  running s fun pc => .next ((s.pushByte .work b).setPc (pc + 1))

/-- LIT2 (41_immediate.md R135). -/
def execLit2 (v : Short) (s : State) : Result :=
  running s fun pc => .next ((s.pushW .work true v).setPc (pc + 2))

/-- LITr (41_immediate.md R136). -/
def execLitr (b : Byte) (s : State) : Result :=
  running s fun pc => .next ((s.pushByte .ret b).setPc (pc + 1))

/-- LIT2r (41_immediate.md R137). -/
def execLit2r (v : Short) (s : State) : Result :=
  running s fun pc => .next ((s.pushW .ret true v).setPc (pc + 2))

end Sys2Proof.Machine
end

