-- ==== Sys2Proof/Machine/LoadStore.lean ====
section
/-! DEFINITION. Loads, stores and device access (45_memory_device.md R200 to R209). The address is on top of the stack,
a store's value below it (decision D3, log entry 12). DEI and DEO run up to their first intercept; what remains of them
is the suspended-instruction record, and Machine/Bus.lean goes on from it (10_state.md R38; log entry 9). -/

namespace Sys2Proof.Machine

/-- LDZ `( a -- v )` (45_memory_device.md R200). -/
def execLdz (m : Mode) (s : State) : Result :=
  let (a, s1) := takeOperands m Stack.pop1 s
  .next (s1.pushW m.active m.short (zpRead s.ram m.short a))

/-- STZ `( v a -- )` (45_memory_device.md R201). -/
def execStz (m : Mode) (s : State) : Result :=
  let ((v, a), s1) := takeOperands m (popsBW m.short) s
  .next (s1.setRam (zpWrite s.ram m.short a v))

/-- LDR `( d -- v )` (45_memory_device.md R202). -/
def execLdr (m : Mode) (s : State) : Result :=
  running s fun pc =>
    let (d, s1) := takeOperands m Stack.pop1 s
    .next (s1.pushW m.active m.short (memRead s.ram m.short (relAddr pc d)))

/-- STR `( v d -- )` (45_memory_device.md R203). -/
def execStr (m : Mode) (s : State) : Result :=
  running s fun pc =>
    let ((v, d), s1) := takeOperands m (popsBW m.short) s
    .next (s1.setRam (memWrite s.ram m.short (relAddr pc d) v))

/-- LDA `( a -- v )`, `a` a short (45_memory_device.md R204). -/
def execLda (m : Mode) (s : State) : Result :=
  let (a, s1) := takeOperands m Stack.pop2 s
  .next (s1.pushW m.active m.short (memRead s.ram m.short a))

/-- STA `( v a -- )`, `a` a short (45_memory_device.md R205). -/
def execSta (m : Mode) (s : State) : Result :=
  let ((v, a), s1) := takeOperands m (popsSW m.short) s
  .next (s1.setRam (memWrite s.ram m.short a v))

/-- DEI `( a -- v )` (45_memory_device.md R206), up to its first `InIntercept`: the high byte is asked first
(decision D6, log entry 10). The push is done when the answer is there (`answerInput`). -/
def execDei (m : Mode) (s : State) : Result :=
  running s fun _ =>
    let (a, s1) := takeOperands m Stack.pop1 s
    .next (s1.setSusp (some (if m.short then .inHigh a m.active else .inByte a m.active)))

/-- DEO `( v a -- )` (45_memory_device.md R207), up to its first `OutIntercept`: the raw byte is stored before the call.
The rest is done when the handler returns (`returnFromOutput`). -/
def execDeo (m : Mode) (s : State) : Result :=
  running s fun _ =>
    let ((v, a), s1) := takeOperands m (popsBW m.short) s
    .next ((s1.devWrite1 a (if m.short then hiByte v else loByte v)).setSusp
      (some (if m.short then .outHigh a (loByte v) (a + 1) else .outByte a)))

end Sys2Proof.Machine
end

