-- ==== Sys2Proof/Machine/StackOps.lean ====
section
/-! DEFINITION. Stack operations (42_stack.md R150 to R157), inside the template of 40_eval_loop.md R105. -/

namespace Sys2Proof.Machine

/-- INC `( a -- a+1 )` (42_stack.md R150). -/
def execInc (m : Mode) (s : State) : Result := unaryOp m (fun a => a + 1) s

/-- POP `( a -- )` (42_stack.md R151). -/
def execPop (m : Mode) (s : State) : Result :=
  let (_, s1) := takeOperands m (fun S => S.popW m.short) s
  .next s1

/-- NIP `( a b -- b )` (42_stack.md R152). -/
def execNip (m : Mode) (s : State) : Result := binaryOp m (fun _ b => b) s

/-- SWP `( a b -- b a )` (42_stack.md R153). -/
def execSwp (m : Mode) (s : State) : Result :=
  let ((a, b), s1) := takeOperands m (popsWW m.short) s
  .next ((s1.pushW m.active m.short b).pushW m.active m.short a)

/-- ROT `( a b c -- b c a )` (42_stack.md R154). -/
def execRot (m : Mode) (s : State) : Result :=
  let ((a, b, c), s1) := takeOperands m (popsWWW m.short) s
  .next (((s1.pushW m.active m.short b).pushW m.active m.short c).pushW m.active m.short a)

/-- DUP `( a -- a a )` (42_stack.md R155). -/
def execDup (m : Mode) (s : State) : Result :=
  let (a, s1) := takeOperands m (fun S => S.popW m.short) s
  .next ((s1.pushW m.active m.short a).pushW m.active m.short a)

/-- OVR `( a b -- a b a )` (42_stack.md R156). -/
def execOvr (m : Mode) (s : State) : Result :=
  let ((a, b), s1) := takeOperands m (popsWW m.short) s
  .next (((s1.pushW m.active m.short a).pushW m.active m.short b).pushW m.active m.short a)

end Sys2Proof.Machine
end

