-- ==== Sys2Proof/Machine/Dispatch.lean ====
section
/-! DEFINITION. One arm per instruction (40_eval_loop.md R102, R105). The program counter is already the advanced pc
(10_state.md R31). -/

namespace Sys2Proof.Machine

def exec (i : Instr) (s : State) : Host.Outcome State Fault Refusal :=
  match i with
  | .brk => Sys2Proof.Machine.execBrk s
  | .jci d => Sys2Proof.Machine.execJci d s
  | .jmi d => Sys2Proof.Machine.execJmi d s
  | .jsi d => Sys2Proof.Machine.execJsi d s
  | .lit b => Sys2Proof.Machine.execLit b s
  | .lit2 v => Sys2Proof.Machine.execLit2 v s
  | .litr b => Sys2Proof.Machine.execLitr b s
  | .lit2r v => Sys2Proof.Machine.execLit2r v s
  | .inc m => Sys2Proof.Machine.execInc m s
  | .pop m => Sys2Proof.Machine.execPop m s
  | .nip m => Sys2Proof.Machine.execNip m s
  | .swp m => Sys2Proof.Machine.execSwp m s
  | .rot m => Sys2Proof.Machine.execRot m s
  | .dup m => Sys2Proof.Machine.execDup m s
  | .ovr m => Sys2Proof.Machine.execOvr m s
  | .equ m => Sys2Proof.Machine.execEqu m s
  | .neq m => Sys2Proof.Machine.execNeq m s
  | .gth m => Sys2Proof.Machine.execGth m s
  | .lth m => Sys2Proof.Machine.execLth m s
  | .jmp m => Sys2Proof.Machine.execJmp m s
  | .jcn m => Sys2Proof.Machine.execJcn m s
  | .jsr m => Sys2Proof.Machine.execJsr m s
  | .sth m => Sys2Proof.Machine.execSth m s
  | .ldz m => Sys2Proof.Machine.execLdz m s
  | .stz m => Sys2Proof.Machine.execStz m s
  | .ldr m => Sys2Proof.Machine.execLdr m s
  | .str m => Sys2Proof.Machine.execStr m s
  | .lda m => Sys2Proof.Machine.execLda m s
  | .sta m => Sys2Proof.Machine.execSta m s
  | .dei m => Sys2Proof.Machine.execDei m s
  | .deo m => Sys2Proof.Machine.execDeo m s
  | .add m => Sys2Proof.Machine.execAdd m s
  | .sub m => Sys2Proof.Machine.execSub m s
  | .mul m => Sys2Proof.Machine.execMul m s
  | .div m => Sys2Proof.Machine.execDiv m s
  | .and m => Sys2Proof.Machine.execAnd m s
  | .ora m => Sys2Proof.Machine.execOra m s
  | .eor m => Sys2Proof.Machine.execEor m s
  | .sft m => Sys2Proof.Machine.execSft m s

end Sys2Proof.Machine
end

