-- ==== Sys2Proof/Machine/Step.lean ====
section
/-! DEFINITION. One step of the machine. The machine is idle (the host's turn), inside an intercept (the device
handler's turn), or it fetches, advances and executes one instruction of the top activation (40_eval_loop.md R102). -/

namespace Sys2Proof.Machine

/-- Fetch at `pc`, advance `pc` by 1, decode, execute (40_eval_loop.md R102). -/
def runInstruction (s : State) (pc : Short) : Result :=
  exec (fetch s.ram pc) (s.setPc (pc + 1))

/-- One step. A machine that carries the fault mark takes no further step (60_exceptions.md R241). -/
def step (s : State) : Host.Outcome State Fault Refusal :=
  match s.fault with
  | some f => .fault f
  | none =>
    match s.act with
    | [] => outsideStep s none
    | a :: _ =>
      match a.susp with
      | some r => interceptStep r s
      | none => runInstruction s a.pc

/-- The three bytes of an instruction word stored at `pc` of bank 0, the first at `pc` (30_encoding.md R86). -/
def storeWord (m : Memory) (pc : Short) (nbits w : Nat) : Memory :=
  copyBytes m 0 pc [tableByte nbits w 0, tableByte nbits w 1, tableByte nbits w 2]

/-- The state whose very next step fetches and runs the given instruction: it is stored at the pc of the running
activation. Where none runs an instruction, an evaluation of the reset vector is started or the suspended one resumed
(70_reset_and_hazards.md R276; log entries 2 and 31). -/
def State.withFetchWord (s : State) (nbits w : Nat) : State :=
  match s.act with
  | [] => { s with fault := none, act := [{ pc := Config.resetVector }],
                   ram := storeWord s.ram Config.resetVector nbits w }
  | a :: rest => { s with fault := none, act := { a with susp := none } :: rest,
                          ram := storeWord s.ram a.pc nbits w }

end Sys2Proof.Machine
end

