-- ==== Sys2Proof/Safety.lean ====
section
/-! DEFINITION. The terms the claims are stated in: the invariant of the machine, what a stack and RAM became, and
frames. Nothing here is used by the machine. Results are written with natural and integer numbers where the spec's own
words are (00_scope.md, section 5), not with the machine's functions. -/

namespace Sys2Proof.Machine

/-! ### The invariant -/

/-- An output intercept is in progress in this activation (10_state.md R32: a record below the top belongs to an outer
evaluation suspended inside an output intercept). -/
def Activation.inOutput (a : Activation) : Bool :=
  match a.susp with
  | some (.outByte _) | some (.outHigh _ _ _) => true
  | some (.inByte _ _) | some (.inHigh _ _) | some (.inLow _ _ _) | none => false

/-- What every step keeps: RAM is in canonical form, `ACT` holds at most `MAX_NEST` records (10_state.md R33), and every
record below the top is suspended inside an output intercept (R32). -/
structure State.Inv (s : State) : Prop where
  ram   : s.ram.wf = true
  depth : s.act.length ≤ Config.maxNest
  below : ∀ a ∈ s.act.tail, a.inOutput = true

/-- The machine has not faulted (10_state.md R45). -/
def State.Safe (s : State) : Prop := s.fault = none

/-- An evaluation runs and its top activation is about to fetch at `pc` (40_eval_loop.md R102). -/
def State.RunsAt (s : State) (pc : Short) (rest : List Activation) : Prop :=
  s.fault = none ∧ s.act = { pc := pc } :: rest

/-- An output intercept is in progress: the outside may call (60_exceptions.md R248, R250). -/
def State.HandlerTurn (s : State) : Prop :=
  s.fault = none ∧ ∃ a rest, s.act = a :: rest ∧ a.inOutput = true

/-- The outside may call, and `c` is the call it makes: the host's while the core is idle, else the handler's of the
device address whose output intercept is in progress (60_exceptions.md R248, R250). -/
def State.NextCall (s : State) (c : PortCall) : Prop :=
  s.fault = none ∧
    ((s.act = [] ∧ (drawCall s none).1 = c) ∨
      ∃ a rest addr, s.act = a :: rest ∧
        (a.susp = some (.outByte addr) ∨ ∃ low lowAddr, a.susp = some (.outHigh addr low lowAddr)) ∧
        (drawCall s (some addr)).1 = c)

/-- The core is idle: the host may call (60_exceptions.md R250, R261). -/
def State.Idle (s : State) : Prop := s.fault = none ∧ s.act = []

/-! ### Stacks -/

/-- `W` as a number of bytes (30_encoding.md R81). -/
def widthOf (short : Bool) : Nat := if short then 2 else 1

/-- The `W`-byte value whose lowest byte lies `depth` bytes below the top of a stack (10_state.md R21, R26). -/
def Stack.itemAt (S : Stack) (short : Bool) (depth : Byte) : Short :=
  if short then shortOf (S.peek (depth + 1)) (S.peek depth) else zextByte (S.peek depth)

/-- The `k`-th item of a stack from the top, counting from 0, all items `W` bytes wide. -/
def Stack.item (S : Stack) (short : Bool) (k : Nat) : Short := S.itemAt short (BitVec.ofNat 8 (k * widthOf short))

/-- The `W` bytes of a value in the order they are pushed (10_state.md R26, R27). -/
def bytesOf (short : Bool) (v : Short) : List Byte :=
  if short then [hiByte v, loByte v] else [loByte v]

/-- The `W` bytes of a number taken modulo `2^(8W)`. -/
def bytesOfNat (short : Bool) (n : Nat) : List Byte := bytesOf short (BitVec.ofNat 16 n)

/-- The pointer after the pops and the keep restore (40_eval_loop.md R105). -/
def Stack.baseAfter (S : Stack) (keep : Bool) (popped : Nat) : Byte :=
  if keep then S.ptr else S.ptr - BitVec.ofNat 8 popped

/-- `T` is `S` after `popped` bytes were popped (and restored in keep mode) and the bytes `pushed` were pushed, first to
last: the pointer, every pushed cell, and every other cell (40_eval_loop.md R105, R108). -/
structure Stack.Became (S : Stack) (keep : Bool) (popped : Nat) (pushed : List Byte) (T : Stack) : Prop where
  ptr : T.ptr = S.baseAfter keep popped + BitVec.ofNat 8 pushed.length
  new : ∀ j (h : j < pushed.length), T.cell (S.baseAfter keep popped + BitVec.ofNat 8 j) = pushed[j]
  old : ∀ i : Byte, pushed.length ≤ (i - S.baseAfter keep popped).toNat → T.cell i = S.cell i

/-! ### RAM -/

/-- The cells of bank 0 a store of a value at a 16-bit address writes (20_memory.md R54). -/
def memCells (short : Bool) (addr v : Short) : List (Short × Byte) :=
  if short then [(addr, hiByte v), (addr + 1, loByte v)] else [(addr, loByte v)]

/-- The cells of bank 0 a store of a value at a zero-page address writes (20_memory.md R57). -/
def zpCells (short : Bool) (a : Byte) (v : Short) : List (Short × Byte) :=
  if short then [(zextByte a, hiByte v), (zextByte (a + 1), loByte v)] else [(zextByte a, loByte v)]

/-- RAM `m'` is `m` with the listed cells of a bank holding the listed bytes, every other byte of every bank as before. -/
def MemoryBecame (m : Memory) (bank : Bank) (cells : List (Short × Byte)) (m' : Memory) : Prop :=
  (∀ c ∈ cells, bankRead1 m' bank c.1 = c.2) ∧
  ∀ b off, (b ≠ bank ∨ ∀ c ∈ cells, off ≠ c.1) → bankRead1 m' b off = bankRead1 m b off

/-! ### Frames -/

/-- Nothing the outside owns has changed, and no fault was marked. -/
structure OutsideUnchanged (s t : State) : Prop where
  fault  : t.fault = s.fault
  inputs : t.inputs = s.inputs
  calls  : t.calls = s.calls
  draws  : t.draws = s.draws

/-- Everything but the named stack and the activations is unchanged. -/
structure OnlyStackAndAct (sel : StackSel) (s t : State) : Prop where
  other   : t.stack sel.other = s.stack sel.other
  ram     : t.ram = s.ram
  dev     : t.dev = s.dev
  outside : OutsideUnchanged s t

/-- Everything but the named stack is unchanged. -/
structure OnlyStack (sel : StackSel) (s t : State) : Prop extends OnlyStackAndAct sel s t where
  act : t.act = s.act

/-- The device file holds the byte `b` at `a` and every other byte is as before (20_memory.md R60). -/
def DeviceBecame (s : State) (a b : Byte) (t : State) : Prop :=
  t.devRead1 a = b ∧ ∀ x, x ≠ a → t.devRead1 x = s.devRead1 x

/-! ### Program counter -/

/-- `trunc_16` of an integer (10_state.md R30). -/
def trunc16 (n : Int) : Short := BitVec.ofInt 16 n

/-- `Target(t)` of 44_control.md R184, on integers. -/
def targetOf (short : Bool) (pc t : Short) : Short :=
  if short then t else trunc16 (pc.toNat + (loByte t).toInt)

/-! ### Encodings -/

/-- The byte `k<<7 | r<<6 | s<<5 | base_op` (30_encoding.md R80). -/
def opcodeOf (m : Mode) (base : Nat) : Byte :=
  BitVec.ofNat 8 (128 * m.keep.toNat + 64 * m.ret.toNat + 32 * m.short.toNat + base)

/-- All eight bytes of a base operation decode to it, with their flags (30_encoding.md R84). -/
def BaseEncoded (op : Mode → Instr) (base : Nat) : Prop :=
  ∀ m rest, decode (opcodeOf m base :: rest) = .ok (op m, rest)

/-- A two-byte instruction: the byte after the opcode is its immediate, in a string of bytes and, read from RAM at the
step, in a running evaluation (30_encoding.md R86; 41_immediate.md R134, R136). -/
def ByteImmediate (op : Byte) (i : Byte → Instr) : Prop :=
  (∀ b rest, decode (op :: b :: rest) = .ok (i b, rest)) ∧
  ∀ (s : State) (pc : Short) (rest : List Activation), s.RunsAt pc rest → memRead1 s.ram pc = op →
    step s = exec (i (memRead1 s.ram (pc + 1))) { s with act := { pc := pc + 1 } :: rest }

/-- A three-byte instruction: the two bytes after the opcode are its immediate, the high byte first (30_encoding.md R86,
R87; 41_immediate.md R131). -/
def ShortImmediate (op : Byte) (i : Short → Instr) : Prop :=
  (∀ h l rest, decode (op :: h :: l :: rest) = .ok (i (shortOf h l), rest)) ∧
  ∀ (s : State) (pc : Short) (rest : List Activation), s.RunsAt pc rest → memRead1 s.ram pc = op →
    step s = exec (i (shortOf (memRead1 s.ram (pc + 1)) (memRead1 s.ram (pc + 2))))
      { s with act := { pc := pc + 1 } :: rest }

/-- A base operation that touches nothing but its active stack: it always completes, pops `popped` bytes and pushes the
bytes `pushed` gives from the mode and the stack it starts on (40_eval_loop.md R105). -/
def StackOnlyResult (op : Mode → Instr) (base : Nat) (popped : Bool → Nat) (pushed : Mode → Stack → List Byte) : Prop :=
  BaseEncoded op base ∧
  ∀ m s, ∃ t, exec (op m) s = .next t ∧ OnlyStack m.active s t ∧
    (s.stack m.active).Became m.keep (popped m.short) (pushed m (s.stack m.active)) (t.stack m.active)

/-! ### Kinds of instruction -/

/-- The instructions that store to RAM (45_memory_device.md R208). -/
def isRamStore : Instr → Bool
  | .stz _ | .str _ | .sta _ => true
  | _ => false

/-- DEO, the one instruction that writes the device file (45_memory_device.md R207). -/
def isDeviceOutput : Instr → Bool
  | .deo _ => true
  | _ => false

/-- The instructions that read or write the program counter or suspend themselves at an intercept. -/
def needsActivation : Instr → Bool
  | .brk | .jci _ | .jmi _ | .jsi _ | .lit _ | .lit2 _ | .litr _ | .lit2r _ => true
  | .jmp _ | .jcn _ | .jsr _ | .ldr _ | .str _ | .dei _ | .deo _ => true
  | _ => false

end Sys2Proof.Machine
end

