-- ==== Sys2Proof/Certificates/Slice0/Obligations.lean ====
section
/-! DEFINITION. The statements for the provers. Each docstring names the rules of spec/ it formalises; OBLIGATIONS.json
lists them in this order. -/

open Sys2Proof Sys2Proof.Machine

/-! ### Encoding -/

/-- Decoding the bytes of an instruction gives the instruction back, and leaves what follows it (30_encoding.md R80,
R83, R85, R86, R87). -/
def Obligations.DecodeOfEncodeIsTheInstruction : Prop :=
  ∀ (i : Instr) (rest : List Byte), i.wellFormed = true → decode (encode i ++ rest) = .ok (i, rest)

/-- Each string of bytes has one reading: encoding what was decoded gives the bytes back (30_encoding.md R82, R90, R95). -/
def Obligations.EncodeOfDecodeIsTheBytes : Prop :=
  ∀ (bs rest : List Byte) (i : Instr), decode bs = .ok (i, rest) → encode i ++ rest = bs

/-- The opcode byte alone tells the length, and every opcode byte decodes (30_encoding.md R86, which the spec marks as
derived from its table of the immediate group). -/
def Obligations.LengthIsToldByTheOpcodeByte : Prop :=
  ∀ (op : Byte) (rest : List Byte),
    let len := if op ∈ [0x20, 0x40, 0x60, 0xA0, 0xE0] then 3 else if op ∈ [0x80, 0xC0] then 2 else 1
    (len ≤ rest.length + 1 → ∃ i, decode (op :: rest) = .ok (i, rest.drop (len - 1)) ∧ (encode i).length = len) ∧
    (rest.length + 1 < len → decode (op :: rest) = .error .truncated)

/-- Some words of the opcode map (30_encoding.md R83, R95; the numbering is the spec's decision D1, log entry 28). A sanity
statement. -/
def Obligations.WordsOfTheOpcodeMapDecode : Prop :=
  decode [0x00] = .ok (.brk, []) ∧
  decode [0x20, 0x00, 0x05] = .ok (.jci 0x0005, []) ∧
  decode [0xA0, 0x12, 0x34] = .ok (.lit2 0x1234, []) ∧
  decode [0x17] = .ok (.deo { keep := false, ret := false, short := false }, []) ∧
  decode [0xF8] = .ok (.add { keep := true, ret := true, short := true }, []) ∧
  decode [0x6C] = .ok (.jmp { keep := false, ret := true, short := true }, [])

/-! ### The step -/

/-- A step fetches at `pc`, advances `pc` by 1, decodes and executes (40_eval_loop.md R102). The fetch is from bank 0, the
immediate bytes with their offsets wrapped modulo 65536: the spec's decision D17 (20_memory.md R64; log entry 18). -/
def Obligations.StepRunsTheDecodedInstruction : Prop :=
  ∀ (s : State) (pc : Short) (rest : List Activation) (i : Instr) (tail : List Byte),
    s.RunsAt pc rest →
    decode [memRead1 s.ram pc, memRead1 s.ram (pc + 1), memRead1 s.ram (pc + 2)] = .ok (i, tail) →
    step s = exec i { s with act := { pc := pc + 1 } :: rest }

/-- Starting an evaluation, at any vector, saves nothing but what the pushed record leaves below it, and goes to the vector;
at the limit it marks the fault, after which no step is taken (40_eval_loop.md R100, R113; 60_exceptions.md R241, R254). That
vector 0x0000 runs like any other is the spec's decision D13 (log entry 20), the limit and its fault D12 (log entries 6
and 7). -/
def Obligations.EvaluatePushesOneRecordOrFaultsAtTheLimit : Prop :=
  ∀ (s : State) (v : Short) (cs : List PortCall),
    s.Idle ∨ s.HandlerTurn → s.calls = .evaluate v :: cs →
    (s.act.length < Config.maxNest →
      step s = .next { s with calls := cs, act := { pc := v, susp := none } :: s.act }) ∧
    (Config.maxNest ≤ s.act.length →
      step s = .next { s with calls := cs, fault := some .nestOverflow } ∧
      step { s with calls := cs, fault := some .nestOverflow } = .fault .nestOverflow)

/-- BRK, byte 0x00: the top activation ends and nothing else changes (41_immediate.md R130). -/
def Obligations.HaltEndsOnlyTheTopActivation : Prop :=
  (∀ rest, decode (0x00 :: rest) = .ok (.brk, rest)) ∧
  ∀ (s : State) (a : Activation) (rest : List Activation),
    s.act = a :: rest → exec .brk s = .next { s with act := rest }

/-- A nested evaluation of a BRK comes back to the handler that started it: the outer activation, its pc and its
suspended instruction are as they were (40_eval_loop.md R111, R112). One pc for each activation is the spec's decision
D11 (log entry 34), that a zero vector is not skipped D13 (log entry 20). -/
def Obligations.NestedEvaluationReturnsToItsHandler : Prop :=
  ∀ (s : State) (v : Short) (cs : List PortCall),
    s.HandlerTurn → s.calls = .evaluate v :: cs → memRead1 s.ram v = 0x00 → s.act.length < Config.maxNest →
    Sys2Proof.core.run 2 s = .next { s with calls := cs }

/-- Only the top activation ever steps: the records below it are never touched; it ends only by a BRK, and a record is
put on it only inside an output intercept, where its pc does not move (10_state.md R32, decision D11, log entry 34;
60_exceptions.md R260). -/
def Obligations.OnlyTheTopActivationSteps : Prop :=
  ∀ (s t : State) (a : Activation) (rest : List Activation),
    s.act = a :: rest → step s = .next t →
    (∃ a', t.act = a' :: rest ∧ (a.susp ≠ none → a'.pc = a.pc)) ∨
    (t.act = rest ∧ a.susp = none ∧ memRead1 s.ram a.pc = 0x00) ∨
    (∃ v, t.act = { pc := v, susp := none } :: a :: rest ∧ a.inOutput = true)

/-- Idleness is entered from a running evaluation only by BRK and left only by Evaluate (60_exceptions.md R261, which the
spec marks as derived). -/
def Obligations.IdlenessIsEnteredByBrkAndLeftByEvaluate : Prop :=
  ∀ (s t : State), step s = .next t →
    (s.act ≠ [] → t.act = [] → ∃ a, s.act = [a] ∧ a.susp = none ∧ memRead1 s.ram a.pc = 0x00) ∧
    (s.act = [] → t.act ≠ [] →
      ∃ v, (drawCall s none).1 = .evaluate v ∧ t = (drawCall s none).2.evaluate v ∧
        t.act = [{ pc := v, susp := none }])

/-- The outside has no move while an instruction runs (60_exceptions.md R250, decision D25; log entry 22). -/
def Obligations.OutsideHasNoMoveDuringAnInstruction : Prop :=
  ∀ (s t : State) (pc : Short) (rest : List Activation),
    s.RunsAt pc rest → step s = .next t → OutsideUnchanged s t

/-- No instruction raises anything: in a running evaluation every instruction has a next state (60_exceptions.md R240). -/
def Obligations.EveryInstructionCompletesInAnEvaluation : Prop :=
  ∀ (i : Instr) (s : State), s.act ≠ [] → ∃ t, exec i s = .next t ∧ OutsideUnchanged s t

/-- Outside any evaluation there is no program counter: the instructions that need one are refused by name, and the
others complete without it (10_state.md R43). The refusal is the model's own (log entry 25). -/
def Obligations.NoProgramCounterOutsideAnEvaluation : Prop :=
  ∀ (i : Instr) (s : State), s.act = [] →
    (needsActivation i = true → exec i s = .refused .noActivation) ∧
    (needsActivation i = false → ∃ t, exec i s = .next t ∧ t.act = [])

/-- A step faults exactly where the mark already stands, and refuses exactly where no mark stands and the call of the
outside is to destroy the machine, as `destroyed`. The mark as a next state and the refusal of a destroyed machine are the
model's choice (log entries 7 and 26; 60_exceptions.md R241, R249). -/
def Obligations.StepStopsOnlyByTheMarkOrByDestroy : Prop :=
  (∀ (s : State) (f : Fault), step s = .fault f ↔ s.fault = some f) ∧
  (∀ (s : State) (r : Refusal), step s = .refused r ↔ r = .destroyed ∧ s.NextCall .destroy)

/-! ### Invariant -/

/-- The invariant holds at reset. The canonical form of RAM is the model's own (log entry 1). -/
def Obligations.InvariantHoldsAtReset : Prop := State.reset.Inv

/-- Every step keeps the invariant: RAM stays canonical (the model's own form, log entry 1), `ACT` stays within `MAX_NEST`
(10_state.md R33, decision D12), and the records below the top stay suspended inside output intercepts (R32, D11, log
entry 34). -/
def Obligations.EveryStepKeepsTheInvariant : Prop :=
  ∀ (s t : State), s.Inv → step s = .next t → t.Inv

/-- Construction (70_reset_and_hazards.md R272; 10_state.md R24, R42): every cell, byte and pointer is zero, no
activation, no fault. The zeroes of RAM and of the device file are the spec's own decision D15 (log entry 1). -/
def Obligations.ConstructionStateIsZero : Prop :=
  (∀ sel i, (State.reset.stack sel).cell i = 0x00 ∧ (State.reset.stack sel).ptr = 0x00) ∧
  (∀ bank off, bankRead1 State.reset.ram bank off = 0x00) ∧
  (∀ a, State.reset.devRead1 a = 0x00) ∧
  State.reset.act = [] ∧ State.reset.fault = none

/-- Both stacks are zero at construction and after a hard and a soft reset (10_state.md R24). -/
def Obligations.StacksAreZeroAtConstructionAndAfterResets : Prop :=
  (∀ sel i, (State.reset.stack sel).cell i = 0x00 ∧ (State.reset.stack sel).ptr = 0x00) ∧
  ∀ (s : State) (img : List Byte) (c : PortCall) (cs : List PortCall),
    s.Idle ∨ s.HandlerTurn → s.calls = c :: cs → c ∈ [.hardReset img, .softReset img] →
    ∃ t, step s = .next t ∧ ∀ sel i, (t.stack sel).cell i = 0x00 ∧ (t.stack sel).ptr = 0x00

/-! ### Whole-machine frames -/

/-- Instructions reach bank 0 only (20_memory.md R52; the fetch by decision D17, log entry 18): none changes another
bank, and whatever the other banks hold, the fetch and the whole result but those banks are the same. -/
def Obligations.InstructionsReachBankZeroOnly : Prop :=
  (∀ (i : Instr) (s t : State) (bank : Bank) (off : Short),
    exec i s = .next t → bank ≠ 0 → bankRead1 t.ram bank off = bankRead1 s.ram bank off) ∧
  ∀ (s : State) (n : Memory), s.ram.wf = true → n.wf = true →
    (∀ off, bankRead1 n 0 off = bankRead1 s.ram 0 off) →
    (∀ pc, fetch n pc = fetch s.ram pc) ∧
    ∀ (i : Instr) (t : State), exec i s = .next t →
      ∃ m, exec i { s with ram := n } = .next { t with ram := m } ∧
        ∀ off, bankRead1 m 0 off = bankRead1 t.ram 0 off

/-- RAM and the device file are separate: only the RAM stores change RAM, only DEO changes the device file
(20_memory.md R59, R66; 90_conflicts.md C5). That DEI writes nothing back is the spec's decision D8 (log entry 15). -/
def Obligations.OnlyStoresChangeRamAndOnlyDeoTheDeviceFile : Prop :=
  ∀ (i : Instr) (s t : State), exec i s = .next t →
    (isRamStore i = false → t.ram = s.ram) ∧ (isDeviceOutput i = false → t.dev = s.dev)

/-! ### Stack operations -/

/-- INC (42_stack.md R150). -/
def Obligations.IncrementAddsOneAtItsWidth : Prop :=
  StackOnlyResult .inc 0x01 widthOf (fun m S => bytesOfNat m.short ((S.item m.short 0).toNat + 1))

/-- POP, NIP, SWP, ROT, DUP and OVR move whole items (42_stack.md R151 to R156). -/
def Obligations.StackShufflesMoveWholeItems : Prop :=
  StackOnlyResult .pop 0x02 widthOf (fun _ _ => []) ∧
  StackOnlyResult .nip 0x03 (fun w => 2 * widthOf w) (fun m S => bytesOf m.short (S.item m.short 0)) ∧
  StackOnlyResult .swp 0x04 (fun w => 2 * widthOf w) (fun m S =>
    bytesOf m.short (S.item m.short 0) ++ bytesOf m.short (S.item m.short 1)) ∧
  StackOnlyResult .rot 0x05 (fun w => 3 * widthOf w) (fun m S =>
    bytesOf m.short (S.item m.short 1) ++ bytesOf m.short (S.item m.short 0) ++ bytesOf m.short (S.item m.short 2)) ∧
  StackOnlyResult .dup 0x06 widthOf (fun m S =>
    bytesOf m.short (S.item m.short 0) ++ bytesOf m.short (S.item m.short 0)) ∧
  StackOnlyResult .ovr 0x07 (fun w => 2 * widthOf w) (fun m S =>
    bytesOf m.short (S.item m.short 1) ++ bytesOf m.short (S.item m.short 0) ++ bytesOf m.short (S.item m.short 1))

/-! ### Comparisons -/

/-- EQU and NEQ push one byte in both widths, 0x01 or 0x00 (43_compare.md R170, R171). -/
def Obligations.EqualityPushesOneBooleanByte : Prop :=
  StackOnlyResult .equ 0x08 (fun w => 2 * widthOf w) (fun m S =>
    [if (S.item m.short 1).toNat = (S.item m.short 0).toNat then 0x01 else 0x00]) ∧
  StackOnlyResult .neq 0x09 (fun w => 2 * widthOf w) (fun m S =>
    [if (S.item m.short 1).toNat = (S.item m.short 0).toNat then 0x00 else 0x01])

/-- GTH and LTH are unsigned and push one byte in both widths (43_compare.md R172, R173). That the deeper operand is on
the left is the spec's decision D2 (log entry 12). -/
def Obligations.OrderIsUnsignedWithTheDeeperOperandOnTheLeft : Prop :=
  StackOnlyResult .gth 0x0A (fun w => 2 * widthOf w) (fun m S =>
    [if (S.item m.short 1).toNat > (S.item m.short 0).toNat then 0x01 else 0x00]) ∧
  StackOnlyResult .lth 0x0B (fun w => 2 * widthOf w) (fun m S =>
    [if (S.item m.short 1).toNat < (S.item m.short 0).toNat then 0x01 else 0x00])

/-! ### Arithmetic and logic -/

/-- ADD and MUL are exact modulo `2^(8W)` (46_alu.md R220, R222). -/
def Obligations.AddAndMultiplyWrapAtTheirWidth : Prop :=
  StackOnlyResult .add 0x18 (fun w => 2 * widthOf w) (fun m S =>
    bytesOfNat m.short (((S.item m.short 1).toNat + (S.item m.short 0).toNat) % 2 ^ (8 * widthOf m.short))) ∧
  StackOnlyResult .mul 0x1A (fun w => 2 * widthOf w) (fun m S =>
    bytesOfNat m.short (((S.item m.short 1).toNat * (S.item m.short 0).toNat) % 2 ^ (8 * widthOf m.short)))

/-- SUB is exact modulo `2^(8W)`; DIV is the unsigned quotient rounded toward zero, and 0 when the divisor is 0
(46_alu.md R221, R223). That the deeper operand is on the left is the spec's decision D2 (log entry 12). -/
def Obligations.SubtractAndDivideTakeTheDeeperOperandOnTheLeft : Prop :=
  StackOnlyResult .sub 0x19 (fun w => 2 * widthOf w) (fun m S =>
    bytesOfNat m.short
      (((S.item m.short 1).toNat + 2 ^ (8 * widthOf m.short) - (S.item m.short 0).toNat) % 2 ^ (8 * widthOf m.short))) ∧
  StackOnlyResult .div 0x1B (fun w => 2 * widthOf w) (fun m S =>
    bytesOfNat m.short
      (if (S.item m.short 0).toNat = 0 then 0 else (S.item m.short 1).toNat / (S.item m.short 0).toNat))

/-- AND, ORA and EOR, bit by bit (46_alu.md R224, R225, R226). -/
def Obligations.LogicIsBitwise : Prop :=
  StackOnlyResult .and 0x1C (fun w => 2 * widthOf w) (fun m S =>
    bytesOfNat m.short ((S.item m.short 1).toNat &&& (S.item m.short 0).toNat)) ∧
  StackOnlyResult .ora 0x1D (fun w => 2 * widthOf w) (fun m S =>
    bytesOfNat m.short ((S.item m.short 1).toNat ||| (S.item m.short 0).toNat)) ∧
  StackOnlyResult .eor 0x1E (fun w => 2 * widthOf w) (fun m S =>
    bytesOfNat m.short ((S.item m.short 1).toNat ^^^ (S.item m.short 0).toNat))

/-- SFT: right by the low nibble of the control byte, then left by its high nibble, logical, bits past the width lost;
the control byte is one byte in short mode too (46_alu.md R227; the shifted value is the deeper operand, decision D2, log
entry 12). -/
def Obligations.ShiftGoesRightThenLeft : Prop :=
  StackOnlyResult .sft 0x1F (fun w => widthOf w + 1) (fun m S =>
    bytesOfNat m.short
      ((S.itemAt m.short 1).toNat / 2 ^ ((S.peek 0).toNat % 16) * 2 ^ ((S.peek 0).toNat / 16)
        % 2 ^ (8 * widthOf m.short)))

/-! ### Control transfer and stack transfer -/

/-- STH pops a value of its active stack and pushes it onto the opposite one (44_control.md R183). -/
def Obligations.StashMovesToTheOppositeStack : Prop :=
  BaseEncoded .sth 0x0F ∧
  ∀ (m : Mode) (s : State), ∃ t, exec (.sth m) s = .next t ∧
    (s.stack m.active).Became m.keep (widthOf m.short) [] (t.stack m.active) ∧
    (s.stack m.active.other).Became false 0 (bytesOf m.short ((s.stack m.active).item m.short 0))
      (t.stack m.active.other) ∧
    t.ram = s.ram ∧ t.dev = s.dev ∧ t.act = s.act ∧ OutsideUnchanged s t

/-- JMP (44_control.md R180, R184). The base of a relative target is the advanced pc: the spec's decision D4 (log entry 13). -/
def Obligations.JumpGoesToItsTarget : Prop :=
  BaseEncoded .jmp 0x0C ∧
  ∀ (m : Mode) (s : State) (a : Activation) (rest : List Activation), s.act = a :: rest →
    ∃ t, exec (.jmp m) s = .next t ∧ OnlyStackAndAct m.active s t ∧
      t.act = { a with pc := targetOf m.short a.pc ((s.stack m.active).item m.short 0) } :: rest ∧
      (s.stack m.active).Became m.keep (widthOf m.short) [] (t.stack m.active)

/-- JCN: the target on top, one condition byte below it in both widths (44_control.md R181, R184; the base of a relative
target is decision D4, log entry 13). -/
def Obligations.ConditionalJumpTestsOneByte : Prop :=
  BaseEncoded .jcn 0x0D ∧
  ∀ (m : Mode) (s : State) (a : Activation) (rest : List Activation), s.act = a :: rest →
    let taken := (s.stack m.active).peek (BitVec.ofNat 8 (widthOf m.short)) ≠ 0x00
    let target := targetOf m.short a.pc ((s.stack m.active).item m.short 0)
    ∃ t, exec (.jcn m) s = .next t ∧ OnlyStackAndAct m.active s t ∧
      t.act = { a with pc := if taken then target else a.pc } :: rest ∧
      (s.stack m.active).Became m.keep (widthOf m.short + 1) [] (t.stack m.active)

/-- JSR: the advanced pc goes as a short onto the opposite stack, high byte first, and control to the target
(44_control.md R182, R184; the base of a relative target is decision D4, log entry 13). -/
def Obligations.JumpToSubroutineSavesThePc : Prop :=
  BaseEncoded .jsr 0x0E ∧
  ∀ (m : Mode) (s : State) (a : Activation) (rest : List Activation), s.act = a :: rest →
    ∃ t, exec (.jsr m) s = .next t ∧
      t.act = { a with pc := targetOf m.short a.pc ((s.stack m.active).item m.short 0) } :: rest ∧
      (s.stack m.active).Became m.keep (widthOf m.short) [] (t.stack m.active) ∧
      (s.stack m.active.other).Became false 0 [hiByte a.pc, loByte a.pc] (t.stack m.active.other) ∧
      t.ram = s.ram ∧ t.dev = s.dev ∧ OutsideUnchanged s t

/-! ### Immediate group -/

/-- JCI (41_immediate.md R131). -/
def Obligations.ImmediateConditionalJump : Prop :=
  ShortImmediate 0x20 .jci ∧
  ∀ (d : Short) (s : State) (a : Activation) (rest : List Activation), s.act = a :: rest →
    ∃ t, exec (.jci d) s = .next t ∧ OnlyStackAndAct .work s t ∧
      t.act = { a with pc := if s.wst.peek 0 ≠ 0x00 then trunc16 (a.pc.toNat + 2 + d.toInt)
                             else trunc16 (a.pc.toNat + 2) } :: rest ∧
      s.wst.Became false 1 [] t.wst

/-- JMI touches no stack (41_immediate.md R132); JSI pushes the address after itself onto the return stack as a short
(R133). -/
def Obligations.ImmediateJumpAndCall : Prop :=
  ShortImmediate 0x40 .jmi ∧ ShortImmediate 0x60 .jsi ∧
  ∀ (d : Short) (s : State) (a : Activation) (rest : List Activation), s.act = a :: rest →
    exec (.jmi d) s = .next { s with act := { a with pc := trunc16 (a.pc.toNat + 2 + d.toInt) } :: rest } ∧
    ∃ t, exec (.jsi d) s = .next t ∧ OnlyStackAndAct .ret s t ∧
      t.act = { a with pc := trunc16 (a.pc.toNat + 2 + d.toInt) } :: rest ∧
      s.rst.Became false 0 [hiByte (trunc16 (a.pc.toNat + 2)), loByte (trunc16 (a.pc.toNat + 2))] t.rst

/-- LIT and LIT2 push their bytes onto the work stack in the order they stand in memory, LITr and LIT2r onto the return
stack, and each skips its immediate (41_immediate.md R134 to R137). -/
def Obligations.LiteralsPushTheirImmediate : Prop :=
  ByteImmediate 0x80 .lit ∧ ShortImmediate 0xA0 .lit2 ∧ ByteImmediate 0xC0 .litr ∧ ShortImmediate 0xE0 .lit2r ∧
  ∀ (b h l : Byte) (s : State) (a : Activation) (rest : List Activation), s.act = a :: rest →
    (∃ t, exec (.lit b) s = .next t ∧ OnlyStackAndAct .work s t ∧ s.wst.Became false 0 [b] t.wst ∧
      t.act = { a with pc := trunc16 (a.pc.toNat + 1) } :: rest) ∧
    (∃ t, exec (.lit2 (shortOf h l)) s = .next t ∧ OnlyStackAndAct .work s t ∧ s.wst.Became false 0 [h, l] t.wst ∧
      t.act = { a with pc := trunc16 (a.pc.toNat + 2) } :: rest) ∧
    (∃ t, exec (.litr b) s = .next t ∧ OnlyStackAndAct .ret s t ∧ s.rst.Became false 0 [b] t.rst ∧
      t.act = { a with pc := trunc16 (a.pc.toNat + 1) } :: rest) ∧
    (∃ t, exec (.lit2r (shortOf h l)) s = .next t ∧ OnlyStackAndAct .ret s t ∧ s.rst.Became false 0 [h, l] t.rst ∧
      t.act = { a with pc := trunc16 (a.pc.toNat + 2) } :: rest)

/-! ### Loads and stores -/

/-- LDA pushes exactly the `W` bytes it reads at an absolute address of bank 0, the second offset wrapped modulo 65536
(45_memory_device.md R204; 20_memory.md R53). -/
def Obligations.AbsoluteLoad : Prop :=
  BaseEncoded .lda 0x14 ∧
  ∀ (m : Mode) (s : State),
    ∃ t, exec (.lda m) s = .next t ∧ OnlyStack m.active s t ∧
      let a := (s.stack m.active).itemAt true 0
      (s.stack m.active).Became m.keep 2
        (if m.short then [bankRead1 s.ram 0 a, bankRead1 s.ram 0 (a + 1)] else [bankRead1 s.ram 0 a])
        (t.stack m.active)

/-- LDR reads at the advanced pc plus a signed byte, modulo 65536 (45_memory_device.md R202; 20_memory.md R58; the base is
decision D4, log entry 13). -/
def Obligations.RelativeLoad : Prop :=
  BaseEncoded .ldr 0x12 ∧
  ∀ (m : Mode) (s : State) (act : Activation) (rest : List Activation), s.act = act :: rest →
    ∃ t, exec (.ldr m) s = .next t ∧ OnlyStack m.active s t ∧
      let a := trunc16 (act.pc.toNat + ((s.stack m.active).peek 0).toInt)
      (s.stack m.active).Became m.keep 1
        (if m.short then [bankRead1 s.ram 0 a, bankRead1 s.ram 0 (a + 1)] else [bankRead1 s.ram 0 a])
        (t.stack m.active)

/-- LDZ pushes the `W` bytes at its zero-page address, STZ stores `W` bytes there and nothing else
(45_memory_device.md R200, R201; 20_memory.md R57). That the second address wraps inside the zero page is the spec's
decision D5 (log entry 14), that the value lies below the address D3 (log entry 12). -/
def Obligations.ZeroPageLoadAndStore : Prop :=
  BaseEncoded .ldz 0x10 ∧ BaseEncoded .stz 0x11 ∧
  ∀ (m : Mode) (s : State),
    let S := s.stack m.active
    (∃ t, exec (.ldz m) s = .next t ∧ OnlyStack m.active s t ∧
      S.Became m.keep 1
        (if m.short then [bankRead1 s.ram 0 (zextByte (S.peek 0)), bankRead1 s.ram 0 (zextByte (S.peek 0 + 1))]
         else [bankRead1 s.ram 0 (zextByte (S.peek 0))]) (t.stack m.active)) ∧
    (s.ram.wf = true →
      ∃ t, exec (.stz m) s = .next t ∧ S.Became m.keep (1 + widthOf m.short) [] (t.stack m.active) ∧
        MemoryBecame s.ram 0 (zpCells m.short (S.peek 0) (S.itemAt m.short 1)) t.ram ∧
        t.stack m.active.other = s.stack m.active.other ∧ t.dev = s.dev ∧ t.act = s.act ∧ OutsideUnchanged s t)

/-- STR stores `W` bytes at the advanced pc plus a signed byte (45_memory_device.md R203; 20_memory.md R54, R58; the base is
decision D4, log entry 13, the order of the operands D3, log entry 12). -/
def Obligations.RelativeStore : Prop :=
  BaseEncoded .str 0x13 ∧
  ∀ (m : Mode) (s : State) (act : Activation) (rest : List Activation), s.ram.wf = true → s.act = act :: rest →
    ∃ t, exec (.str m) s = .next t ∧
      (s.stack m.active).Became m.keep (1 + widthOf m.short) [] (t.stack m.active) ∧
      MemoryBecame s.ram 0
        (memCells m.short (trunc16 (act.pc.toNat + ((s.stack m.active).peek 0).toInt))
          ((s.stack m.active).itemAt m.short 1)) t.ram ∧
      t.stack m.active.other = s.stack m.active.other ∧ t.dev = s.dev ∧ t.act = s.act ∧ OutsideUnchanged s t

/-- STA stores `W` bytes at an absolute address (45_memory_device.md R205; 20_memory.md R54; the order of the operands is
decision D3, log entry 12). -/
def Obligations.AbsoluteStore : Prop :=
  BaseEncoded .sta 0x15 ∧
  ∀ (m : Mode) (s : State), s.ram.wf = true →
    ∃ t, exec (.sta m) s = .next t ∧
      (s.stack m.active).Became m.keep (2 + widthOf m.short) [] (t.stack m.active) ∧
      MemoryBecame s.ram 0
        (memCells m.short ((s.stack m.active).itemAt true 0) ((s.stack m.active).itemAt m.short 2)) t.ram ∧
      t.stack m.active.other = s.stack m.active.other ∧ t.dev = s.dev ∧ t.act = s.act ∧ OutsideUnchanged s t

/-- A store to the byte after itself is executed as written (20_memory.md R73, decision D20, log entry 18; the store is an
STR, decisions D3 and D4, log entries 12 and 13). -/
def Obligations.StoredByteIsTheNextInstruction : Prop :=
  ∀ (s : State) (pc : Short) (rest : List Activation),
    s.RunsAt pc rest → s.ram.wf = true → memRead1 s.ram pc = 0x13 → s.wst.peek 0 = 0x00 →
    ∃ t, step s = .next t ∧ t.RunsAt (pc + 1) rest ∧ memRead1 t.ram (pc + 1) = s.wst.peek 1 ∧
      step t = exec (decodeOp (s.wst.peek 1) (memRead1 s.ram (pc + 2)) (memRead1 s.ram (pc + 3)))
        { t with act := { pc := pc + 2 } :: rest }

/-- A short written is seen by byte reads as its high byte at the address and its low byte at the wrapped next one, a
short read assembles the two bytes, and a short written is read back (20_memory.md R62), in RAM and in the device
file. -/
def Obligations.WriteThenReadRoundTrips : Prop :=
  ∀ (s : State) (bank : Bank) (off v : Short) (a : Byte), s.ram.wf = true →
    let m := bankWrite s.ram true bank off v
    let d := s.devWrite true a v
    bankRead1 m bank off = hiByte v ∧ bankRead1 m bank (off + 1) = loByte v ∧
    bankRead s.ram true bank off = shortOf (bankRead1 s.ram bank off) (bankRead1 s.ram bank (off + 1)) ∧
    bankRead m true bank off = v ∧
    d.devRead1 a = hiByte v ∧ d.devRead1 (a + 1) = loByte v ∧
    s.devRead true a = shortOf (s.devRead1 a) (s.devRead1 (a + 1)) ∧ d.devRead true a = v

/-- Two RAMs in canonical form that read the same everywhere are the same data. The form is the model's own (log entry 1). -/
def Obligations.CanonicalRamsThatReadTheSameAreEqual : Prop :=
  ∀ (m n : Memory), m.wf = true → n.wf = true →
    (∀ bank off, bankRead1 m bank off = bankRead1 n bank off) → m = n

/-! ### Device access -/

/-- DEI up to its first intercept: the address byte is popped, the call is pending, the device file is neither read nor
written (45_memory_device.md R206; decisions D6, D8 and D19, log entries 9, 10 and 15). That in keep mode the pointer is
already restored while the intercept is pending is decision D7 (log entry 11). -/
def Obligations.DeviceInputAsksItsFirstByte : Prop :=
  BaseEncoded .dei 0x16 ∧
  ∀ (m : Mode) (s : State) (a : Activation) (rest : List Activation), s.act = a :: rest →
    ∃ t, exec (.dei m) s = .next t ∧ OnlyStackAndAct m.active s t ∧
      (s.stack m.active).Became m.keep 1 [] (t.stack m.active) ∧
      t.act = { a with susp := some (if m.short then .inHigh ((s.stack m.active).peek 0) m.active
                                     else .inByte ((s.stack m.active).peek 0) m.active) } :: rest

/-- A whole DEI: it takes as many answers as it reads bytes, the high byte's first, and pushes them; nothing else
changes (45_memory_device.md R206; decisions D6, D8 and D9, log entries 8, 10 and 15). The queue of answers is the model's
own (log entry 3). -/
def Obligations.DeviceInputPushesTheAnswers : Prop :=
  ∀ (m : Mode) (s : State) (pc : Short) (rest : List Activation) (answers later : List Byte),
    s.RunsAt pc rest → memRead1 s.ram pc = opcodeOf m 0x16 →
    s.inputs = answers ++ later → answers.length = widthOf m.short →
    ∃ t, Sys2Proof.core.run (1 + widthOf m.short) s = .next t ∧
      (s.stack m.active).Became m.keep 1 answers (t.stack m.active) ∧
      t.stack m.active.other = s.stack m.active.other ∧ t.ram = s.ram ∧ t.dev = s.dev ∧
      t.RunsAt (pc + 1) rest ∧ t.inputs = later ∧ t.calls = s.calls ∧ t.draws = s.draws

/-- Where no answer is queued, the byte of a DEI is the free value `InIntercept` of the state, the address and the
draw, whatever that is (60_exceptions.md R243, decision D9), and only the draw counter, the model's own, tells (log entries
3 and 5). That the high byte is asked first is decision D6 (log entry 10). -/
def Obligations.UnqueuedInputIsTheFreeAnswer : Prop :=
  ∀ (s : State) (pc : Short) (rest : List Activation) (addr hi : Byte) (dest : StackSel),
    s.fault = none → s.inputs = [] →
    (s.act = { pc := pc, susp := some (.inByte addr dest) } :: rest →
      ∃ t, step s = .next t ∧
        (s.stack dest).Became false 0 [Config.inIntercept s addr s.draws] (t.stack dest) ∧
        t.act = { pc := pc } :: rest ∧ t.draws = s.draws + 1 ∧
        t.stack dest.other = s.stack dest.other ∧ t.ram = s.ram ∧ t.dev = s.dev ∧
        t.fault = none ∧ t.inputs = [] ∧ t.calls = s.calls) ∧
    (s.act = { pc := pc, susp := some (.inHigh addr dest) } :: rest →
      step s = .next { s with draws := s.draws + 1, act :=
        { pc := pc, susp := some (.inLow (addr + 1) (Config.inIntercept s addr s.draws) dest) } :: rest }) ∧
    (s.act = { pc := pc, susp := some (.inLow addr hi dest) } :: rest →
      ∃ t, step s = .next t ∧
        (s.stack dest).Became false 0 [hi, Config.inIntercept s addr s.draws] (t.stack dest) ∧
        t.act = { pc := pc } :: rest ∧ t.draws = s.draws + 1 ∧
        t.stack dest.other = s.stack dest.other ∧ t.ram = s.ram ∧ t.dev = s.dev ∧
        t.fault = none ∧ t.inputs = [] ∧ t.calls = s.calls)

/-- DEO up to its first intercept: the first raw byte is stored before the call, and what remains is recorded
(45_memory_device.md R207; 10_state.md R38; decisions D6 and D19, log entries 9 and 10). That in keep mode the pointer is
already restored when the first intercept runs is decision D7 (log entry 11). -/
def Obligations.DeviceOutputStoresBeforeItsFirstCall : Prop :=
  BaseEncoded .deo 0x17 ∧
  ∀ (m : Mode) (s : State) (act : Activation) (rest : List Activation), s.act = act :: rest →
    let a := (s.stack m.active).peek 0
    let v := (s.stack m.active).itemAt m.short 1
    ∃ t, exec (.deo m) s = .next t ∧
      (s.stack m.active).Became m.keep (1 + widthOf m.short) [] (t.stack m.active) ∧
      DeviceBecame s a (if m.short then hiByte v else loByte v) t ∧
      t.act = { act with susp := some (if m.short then .outHigh a (loByte v) (a + 1) else .outByte a) } :: rest ∧
      t.stack m.active.other = s.stack m.active.other ∧ t.ram = s.ram ∧ OutsideUnchanged s t

/-- A whole DEO whose handler only returns: one write and one call for a byte, two for a short, high byte first, and the
address wraps within 256 (45_memory_device.md R207; 60_exceptions.md R246; decision D6, log entry 10). The queue of calls is
the model's own (log entry 4). -/
def Obligations.DeviceOutputWritesEachByteOnce : Prop :=
  ∀ (m : Mode) (s : State) (pc : Short) (rest : List Activation) (cs : List PortCall),
    s.RunsAt pc rest → memRead1 s.ram pc = opcodeOf m 0x17 →
    s.calls = List.replicate (widthOf m.short) .done ++ cs →
    let a := (s.stack m.active).peek 0
    ∃ t, Sys2Proof.core.run (1 + widthOf m.short) s = .next t ∧
      (s.stack m.active).Became m.keep (1 + widthOf m.short) [] (t.stack m.active) ∧
      (∀ x, t.devRead1 x =
        if m.short then
          if x = a + 1 then (s.stack m.active).peek 1 else if x = a then (s.stack m.active).peek 2 else s.devRead1 x
        else if x = a then (s.stack m.active).peek 1 else s.devRead1 x) ∧
      t.stack m.active.other = s.stack m.active.other ∧ t.ram = s.ram ∧
      t.RunsAt (pc + 1) rest ∧ t.calls = cs ∧ t.inputs = s.inputs ∧ t.draws = s.draws

/-- The handler of a DEO2's high byte still sees the old low byte, and what it writes there is overwritten when it
returns; the intercept of the low byte follows (70_reset_and_hazards.md R282, which the spec marks as derived; decision D6,
log entry 10). -/
def Obligations.LowByteOfShortOutputOverwritesTheHandler : Prop :=
  ∀ (s : State) (pc : Short) (rest : List Activation) (addr low lowAddr : Byte) (x : Short) (cs : List PortCall),
    s.fault = none → s.act = { pc := pc, susp := some (.outHigh addr low lowAddr) } :: rest →
    s.calls = .devWrite false lowAddr x :: .done :: cs →
    ∃ t, Sys2Proof.core.run 2 s = .next t ∧ DeviceBecame s lowAddr low t ∧
      t.act = { pc := pc, susp := some (.outByte lowAddr) } :: rest ∧
      t.wst = s.wst ∧ t.rst = s.rst ∧ t.ram = s.ram ∧ t.calls = cs ∧ t.fault = none

/-! ### Host port -/

/-- The reads of the host port change nothing, and answer what stands there (20_memory.md R55, R60; 10_state.md R28;
60_exceptions.md R249; the 4-bit bank is decision D24, log entry 22; that State keeps no answer is the model's choice, log
entry 32; the snapshot of the stacks is log entry 35). -/
def Obligations.PortReadsChangeNothing : Prop :=
  ∀ (s : State) (c : PortCall) (cs : List PortCall) (short : Bool) (bank : Bank) (off : Short) (a : Byte)
    (sel : StackSel),
    s.Idle ∨ s.HandlerTurn → s.calls = c :: cs →
    c ∈ [.bankRead short bank off, .devRead short a, .getPointer sel, .peek sel a, .snapshot, .snapshotStacks] →
    step s = .next { s with calls := cs } ∧
    portAnswer (.bankRead short bank off) s =
      (if short then .short (shortOf (bankRead1 s.ram bank off) (bankRead1 s.ram bank (off + 1)))
       else .byte (bankRead1 s.ram bank off)) ∧
    portAnswer (.devRead short a) s =
      (if short then .short (shortOf (s.devRead1 a) (s.devRead1 (a + 1))) else .byte (s.devRead1 a)) ∧
    portAnswer (.getPointer sel) s = .byte (s.stack sel).ptr ∧
    portAnswer (.peek sel a) s = .byte ((s.stack sel).cell ((s.stack sel).ptr - 1 - a)) ∧
    portAnswer .snapshot s = .ram s.ram ∧ portAnswer .snapshotStacks s = .stacks s.wst s.rst

/-- The writes of the host port to RAM and to the device file (20_memory.md R54, R55, R60; the 4-bit bank is decision D24,
log entry 22). -/
def Obligations.PortWritesStoreBigEndian : Prop :=
  ∀ (s : State) (cs : List PortCall) (short : Bool) (bank : Bank) (off : Short) (a : Byte) (v : Short),
    s.Idle ∨ s.HandlerTurn → s.ram.wf = true →
    (s.calls = .bankWrite short bank off v :: cs →
      ∃ m, step s = .next { s with calls := cs, ram := m } ∧
        MemoryBecame s.ram bank (memCells short off v) m) ∧
    (s.calls = .devWrite short a v :: cs →
      ∃ d, step s = .next { s with calls := cs, dev := d } ∧
        ∀ x : Byte, d[x.toNat]'x.isLt =
          if short then if x = a + 1 then loByte v else if x = a then hiByte v else s.devRead1 x
          else if x = a then loByte v else s.devRead1 x)

/-- The stack calls of the host port (10_state.md R25 to R28; 60_exceptions.md R249), one call a step (log entry 4);
zeroing both stacks at once is log entry 35. -/
def Obligations.PortStackCallsPushPopAndSetThePointer : Prop :=
  ∀ (s : State) (cs : List PortCall) (sel : StackSel) (short : Bool) (v : Short) (p : Byte),
    s.Idle ∨ s.HandlerTurn →
    (s.calls = .setPointer sel p :: cs →
      ∃ t, step s = .next t ∧ t.stack sel = { dat := (s.stack sel).dat, ptr := p } ∧ t.calls = cs ∧ t.act = s.act ∧
        t.stack sel.other = s.stack sel.other ∧ t.ram = s.ram ∧ t.dev = s.dev ∧ t.fault = none ∧
        t.inputs = s.inputs ∧ t.draws = s.draws) ∧
    (s.calls = .push sel short v :: cs →
      ∃ t, step s = .next t ∧ (s.stack sel).Became false 0 (bytesOf short v) (t.stack sel) ∧ t.calls = cs ∧
        t.act = s.act ∧ t.stack sel.other = s.stack sel.other ∧ t.ram = s.ram ∧ t.dev = s.dev ∧ t.fault = none ∧
        t.inputs = s.inputs ∧ t.draws = s.draws) ∧
    (s.calls = .pop sel short :: cs →
      ∃ t, step s = .next t ∧ (s.stack sel).Became false (widthOf short) [] (t.stack sel) ∧ t.calls = cs ∧
        portAnswer (.pop sel short) s =
          (if short then .short ((s.stack sel).itemAt true 0) else .byte ((s.stack sel).peek 0)) ∧
        t.act = s.act ∧ t.stack sel.other = s.stack sel.other ∧ t.ram = s.ram ∧ t.dev = s.dev ∧ t.fault = none ∧
        t.inputs = s.inputs ∧ t.draws = s.draws) ∧
    (s.calls = .zeroStacks :: cs →
      step s = .next { s with calls := cs, wst := { dat := Vector.replicate 256 0x00, ptr := 0x00 },
                              rst := { dat := Vector.replicate 256 0x00, ptr := 0x00 } })

/-- `bulk_load` copies up to the end of the bank, never past it (20_memory.md R68), and the host port's call of it does
that and nothing else (60_exceptions.md R249; the queue of calls is the model's own, log entry 4). -/
def Obligations.BulkLoadStopsAtTheBankEnd : Prop :=
  (∀ (m : Memory) (src : List Byte) (bank : Bank) (off : Short), m.wf = true →
    ∀ (b : Bank) (o : Short), bankRead1 (bulkLoad m src bank off) b o =
      if b = bank ∧ off.toNat ≤ o.toNat ∧ o.toNat - off.toNat < src.length
      then src[o.toNat - off.toNat]?.getD 0 else bankRead1 m b o) ∧
  ∀ (s : State) (src : List Byte) (bank : Bank) (off : Short) (cs : List PortCall),
    s.Idle ∨ s.HandlerTurn → s.calls = .bulkLoad src bank off :: cs →
    step s = .next { s with calls := cs, ram := bulkLoad s.ram src bank off }

/-- The boot image lies linearly from the reset vector of bank 0 through all banks, and what does not fit is dropped
(70_reset_and_hazards.md R275, decision D16, log entry 17), and the host port's call of `LoadImage` does that and nothing
else (60_exceptions.md R249; the queue of calls is the model's own, log entry 4). -/
def Obligations.BootImageLiesLinearlyFromTheResetVector : Prop :=
  (∀ (m : Memory) (img : List Byte) (bank : Bank) (off : Short), m.wf = true →
    bankRead1 (loadImage m img) bank off =
      if 0x100 ≤ bank.toNat * 65536 + off.toNat ∧ bank.toNat * 65536 + off.toNat - 0x100 < img.length
      then img[bank.toNat * 65536 + off.toNat - 0x100]?.getD 0 else bankRead1 m bank off) ∧
  ∀ (s : State) (img : List Byte) (cs : List PortCall),
    s.Idle ∨ s.HandlerTurn → s.calls = .loadImage img :: cs →
    step s = .next { s with calls := cs, ram := loadImage s.ram img }

/-- `zero` and `dev_zero` (20_memory.md R69, R70), and the host port's calls of them do that and nothing else
(60_exceptions.md R249; the queue of calls is the model's own, log entry 4). -/
def Obligations.ZeroClearsAllButThePreservedBytes : Prop :=
  (∀ (m : Memory) (preserve : Bool) (bank : Bank) (off : Short),
    bankRead1 (zeroRam m preserve) bank off =
      if preserve = true ∧ bank = 0 ∧ off.toNat < 0x100 then bankRead1 m bank off else 0x00) ∧
  (∀ (s : State) (a : Byte), s.devZero.devRead1 a = 0x00) ∧
  ∀ (s : State) (preserve : Bool) (cs : List PortCall), s.Idle ∨ s.HandlerTurn →
    (s.calls = .zero preserve :: cs → step s = .next { s with calls := cs, ram := zeroRam s.ram preserve }) ∧
    (s.calls = .devZero :: cs →
      ∃ d, step s = .next { s with calls := cs, dev := d } ∧ ∀ x : Byte, d[x.toNat]'x.isLt = 0x00)

/-- Hard reset: all RAM zero but for the image, the device file and both stacks zero (70_reset_and_hazards.md R270; the
layout of the image is decision D16, log entry 17); `ACT` and the fault mark are not touched (R274, R283, decision D21, log
entry 19). -/
def Obligations.HardResetZeroesAndLoads : Prop :=
  ∀ (s : State) (img : List Byte) (cs : List PortCall),
    s.Idle ∨ s.HandlerTurn → s.ram.wf = true → s.calls = .hardReset img :: cs →
    ∃ t, step s = .next t ∧
      (∀ bank off, bankRead1 t.ram bank off =
        if 0x100 ≤ bank.toNat * 65536 + off.toNat then img[bank.toNat * 65536 + off.toNat - 0x100]?.getD 0 else 0x00) ∧
      (∀ a, t.devRead1 a = 0x00) ∧
      (∀ sel i, (t.stack sel).cell i = 0x00 ∧ (t.stack sel).ptr = 0x00) ∧
      t.act = s.act ∧ t.fault = s.fault ∧ t.calls = cs

/-- Soft reset: as the hard one, but the zero page survives (70_reset_and_hazards.md R271, R274, R283; the device file is
zeroed by decision D14, log entry 16; also D16 and D21, log entries 17 and 19). -/
def Obligations.SoftResetKeepsOnlyTheZeroPage : Prop :=
  ∀ (s : State) (img : List Byte) (cs : List PortCall),
    s.Idle ∨ s.HandlerTurn → s.ram.wf = true → s.calls = .softReset img :: cs →
    ∃ t, step s = .next t ∧
      (∀ bank off, bankRead1 t.ram bank off =
        if 0x100 ≤ bank.toNat * 65536 + off.toNat then img[bank.toNat * 65536 + off.toNat - 0x100]?.getD 0
        else bankRead1 s.ram bank off) ∧
      (∀ a, t.devRead1 a = 0x00) ∧
      (∀ sel i, (t.stack sel).cell i = 0x00 ∧ (t.stack sel).ptr = 0x00) ∧
      t.act = s.act ∧ t.fault = s.fault ∧ t.calls = cs

/-! ### Stacks -/

/-- A push writes the cell at the pointer and moves the pointer up, a pop moves it down and reads the cell there and
clears nothing, both modulo 256 (10_state.md R25). -/
def Obligations.PushWritesThenMovesAndPopMovesThenReads : Prop :=
  ∀ (S : Stack) (b : Byte),
    (S.push1 b).ptr = BitVec.ofNat 8 ((S.ptr.toNat + 1) % 256) ∧
    (∀ i, (S.push1 b).cell i = if i = S.ptr then b else S.cell i) ∧
    S.pop1.2.ptr = BitVec.ofNat 8 ((S.ptr.toNat + 255) % 256) ∧
    S.pop1.1 = S.cell S.pop1.2.ptr ∧ ∀ i, S.pop1.2.cell i = S.cell i

/-- Overflow and underflow wrap silently: 256 pushes and one more leave the pointer one further than before and have
overwritten the first cell, and a pop of an empty stack reads the last cell (70_reset_and_hazards.md R280; 10_state.md
R29). -/
def Obligations.PushesPastTheEndWrapAndOverwrite : Prop :=
  (∀ (S : Stack) (bs : List Byte) (last : Byte), bs.length = 256 →
    ((bs ++ [last]).foldl Stack.push1 S).ptr = S.ptr + 1 ∧
    ((bs ++ [last]).foldl Stack.push1 S).cell S.ptr = last ∧
    ∀ j, j < 256 → j ≠ 0 → some (((bs ++ [last]).foldl Stack.push1 S).cell (S.ptr + BitVec.ofNat 8 j)) = bs[j]?) ∧
  (∀ (S : Stack) (b : Byte), S.ptr = 0xFF → (S.push1 b).ptr = 0x00 ∧ (S.push1 b).cell 0xFF = b) ∧
  (∀ (S : Stack), S.ptr = 0x00 → S.pop1.2.ptr = 0xFF ∧ S.pop1.1 = S.cell 0xFF)

/-- A call and its return: JMP2r comes back to the byte after the JSI, and the work stack is untouched (44_control.md
R185, which the spec marks as derived; 41_immediate.md R133). -/
def Obligations.ReturnComesBackAfterTheCall : Prop :=
  ∀ (s : State) (d : Short) (a : Activation) (rest : List Activation), s.act = a :: rest →
    ∃ t u, exec (.jsi d) s = .next t ∧
      exec (.jmp { keep := false, ret := true, short := true }) t = .next u ∧
      u.act = { a with pc := a.pc + 2 } :: rest ∧ u.rst.ptr = s.rst.ptr ∧ u.wst = s.wst ∧ u.ram = s.ram
end

