-- ==== Sys2Proof/Laws/Bits.lean ====
section
/-! SUPPORT. Byte order and extension (20_memory.md R61), each read as numbers. -/

namespace Sys2Proof

theorem loByte_toNat (v : Short) : (loByte v).toNat = v.toNat % 256 := by simp [loByte]

theorem hiByte_toNat (v : Short) : (hiByte v).toNat = v.toNat / 256 := by
  have := v.isLt
  simp only [hiByte, BitVec.extractLsb'_toNat, Nat.shiftRight_eq_div_pow]
  omega

theorem shortOf_toNat (hi lo : Byte) : (shortOf hi lo).toNat = hi.toNat * 256 + lo.toNat := by
  have := lo.isLt
  rw [shortOf, BitVec.toNat_append, Nat.shiftLeft_eq, ← Nat.shiftLeft_eq,
    ← Nat.shiftLeft_add_eq_or_of_lt (by omega), Nat.shiftLeft_eq]

@[simp] theorem zextByte_toNat (b : Byte) : (zextByte b).toNat = b.toNat := by
  have := b.isLt
  simp [zextByte]
  omega

@[simp] theorem hiByte_shortOf (hi lo : Byte) : hiByte (shortOf hi lo) = hi := by
  have := lo.isLt
  apply BitVec.eq_of_toNat_eq
  rw [hiByte_toNat, shortOf_toNat]
  omega

@[simp] theorem loByte_shortOf (hi lo : Byte) : loByte (shortOf hi lo) = lo := by
  have := lo.isLt
  apply BitVec.eq_of_toNat_eq
  rw [loByte_toNat, shortOf_toNat]
  omega

@[simp] theorem shortOf_hiByte_loByte (v : Short) : shortOf (hiByte v) (loByte v) = v := by
  apply BitVec.eq_of_toNat_eq
  rw [shortOf_toNat, hiByte_toNat, loByte_toNat]
  omega

@[simp] theorem loByte_zextByte (b : Byte) : loByte (zextByte b) = b := by
  have := b.isLt
  apply BitVec.eq_of_toNat_eq
  rw [loByte_toNat, zextByte_toNat]
  omega

theorem zextByte_inj {a b : Byte} : zextByte a = zextByte b ↔ a = b :=
  ⟨fun h => by have := congrArg loByte h; simpa using this, fun h => h ▸ rfl⟩

/-- The low byte of a number is the number modulo 256. -/
theorem loByte_ofNat (n : Nat) : loByte (BitVec.ofNat 16 n) = BitVec.ofNat 8 n := by
  apply BitVec.eq_of_toNat_eq
  rw [loByte_toNat]
  simp

theorem byte_add_one_ne (a : Byte) : a + 1 ≠ a := by bv_omega

theorem short_add_one_ne (a : Short) : a + 1 ≠ a := by bv_omega

/-- Adding a sign-extended byte is adding its integer value modulo 65536 (20_memory.md R58). -/
theorem add_sextByte (pc : Short) (d : Byte) : pc + sextByte d = BitVec.ofInt 16 (pc.toNat + d.toInt) := by
  apply BitVec.eq_of_toInt_eq
  rw [BitVec.toInt_add, sextByte, BitVec.toInt_signExtend_of_le (by decide), BitVec.toInt_ofInt,
    BitVec.toInt_eq_toNat_bmod, Int.bmod_add_bmod]

end Sys2Proof
end

