-- ==== Sys2Proof/Laws/PerInstr.lean ====
section
/-! SUPPORT. The per-instruction family `EncodedLength`: the encoding of an instruction is one opcode byte and the bytes
that opcode calls for (30_encoding.md R86). -/

namespace Sys2Proof.Laws.EncodedLength

/-- The encoding of the instruction is one whole instruction. -/
def Statement (i : Instr) : Prop := oneInstruction (encode i) = true

/-- A base operation's byte calls for no further byte. -/
theorem base (m : Mode) (n : BitVec 5) (h : n ≠ 0) : operandBytes (opByte m n) = 0 := by
  obtain ⟨k, r, s⟩ := m
  revert n
  cases k <;> cases r <;> cases s <;> decide

theorem brk : Statement (.brk) := rfl
theorem jci (d : Short) : Statement (.jci d) := rfl
theorem jmi (d : Short) : Statement (.jmi d) := rfl
theorem jsi (d : Short) : Statement (.jsi d) := rfl
theorem lit (b : Byte) : Statement (.lit b) := rfl
theorem lit2 (v : Short) : Statement (.lit2 v) := rfl
theorem litr (b : Byte) : Statement (.litr b) := rfl
theorem lit2r (v : Short) : Statement (.lit2r v) := rfl
theorem inc (m : Mode) : Statement (.inc m) := by simp [Statement, encode, oneInstruction, base]
theorem pop (m : Mode) : Statement (.pop m) := by simp [Statement, encode, oneInstruction, base]
theorem nip (m : Mode) : Statement (.nip m) := by simp [Statement, encode, oneInstruction, base]
theorem swp (m : Mode) : Statement (.swp m) := by simp [Statement, encode, oneInstruction, base]
theorem rot (m : Mode) : Statement (.rot m) := by simp [Statement, encode, oneInstruction, base]
theorem dup (m : Mode) : Statement (.dup m) := by simp [Statement, encode, oneInstruction, base]
theorem ovr (m : Mode) : Statement (.ovr m) := by simp [Statement, encode, oneInstruction, base]
theorem equ (m : Mode) : Statement (.equ m) := by simp [Statement, encode, oneInstruction, base]
theorem neq (m : Mode) : Statement (.neq m) := by simp [Statement, encode, oneInstruction, base]
theorem gth (m : Mode) : Statement (.gth m) := by simp [Statement, encode, oneInstruction, base]
theorem lth (m : Mode) : Statement (.lth m) := by simp [Statement, encode, oneInstruction, base]
theorem jmp (m : Mode) : Statement (.jmp m) := by simp [Statement, encode, oneInstruction, base]
theorem jcn (m : Mode) : Statement (.jcn m) := by simp [Statement, encode, oneInstruction, base]
theorem jsr (m : Mode) : Statement (.jsr m) := by simp [Statement, encode, oneInstruction, base]
theorem sth (m : Mode) : Statement (.sth m) := by simp [Statement, encode, oneInstruction, base]
theorem ldz (m : Mode) : Statement (.ldz m) := by simp [Statement, encode, oneInstruction, base]
theorem stz (m : Mode) : Statement (.stz m) := by simp [Statement, encode, oneInstruction, base]
theorem ldr (m : Mode) : Statement (.ldr m) := by simp [Statement, encode, oneInstruction, base]
theorem str (m : Mode) : Statement (.str m) := by simp [Statement, encode, oneInstruction, base]
theorem lda (m : Mode) : Statement (.lda m) := by simp [Statement, encode, oneInstruction, base]
theorem sta (m : Mode) : Statement (.sta m) := by simp [Statement, encode, oneInstruction, base]
theorem dei (m : Mode) : Statement (.dei m) := by simp [Statement, encode, oneInstruction, base]
theorem deo (m : Mode) : Statement (.deo m) := by simp [Statement, encode, oneInstruction, base]
theorem add (m : Mode) : Statement (.add m) := by simp [Statement, encode, oneInstruction, base]
theorem sub (m : Mode) : Statement (.sub m) := by simp [Statement, encode, oneInstruction, base]
theorem mul (m : Mode) : Statement (.mul m) := by simp [Statement, encode, oneInstruction, base]
theorem div (m : Mode) : Statement (.div m) := by simp [Statement, encode, oneInstruction, base]
theorem and (m : Mode) : Statement (.and m) := by simp [Statement, encode, oneInstruction, base]
theorem ora (m : Mode) : Statement (.ora m) := by simp [Statement, encode, oneInstruction, base]
theorem eor (m : Mode) : Statement (.eor m) := by simp [Statement, encode, oneInstruction, base]
theorem sft (m : Mode) : Statement (.sft m) := by simp [Statement, encode, oneInstruction, base]

end Sys2Proof.Laws.EncodedLength
end

