-- ==== Sys2Proof/Laws/Decode.lean ====
section
/-! SUPPORT. The fields of an opcode byte put together and taken apart (30_encoding.md R80). -/

namespace Sys2Proof

@[simp] theorem modeOf_opByte (m : Mode) (n : BitVec 5) : modeOf (opByte m n) = m := by
  obtain ⟨k, r, s⟩ := m
  revert n
  cases k <;> cases r <;> cases s <;> decide

@[simp] theorem baseOf_opByte (m : Mode) (n : BitVec 5) : baseOf (opByte m n) = n := by
  obtain ⟨k, r, s⟩ := m
  revert n
  cases k <;> cases r <;> cases s <;> decide

/-- An opcode byte is put together again from its fields. -/
theorem opByte_fields (op : Byte) : opByte (modeOf op) (baseOf op) = op := by
  revert op
  decide +kernel

end Sys2Proof
end

