-- ==== Sys2Proof/Laws/State.lean ====
section
/-! SUPPORT. One lemma per field per update of a state, so that no later proof unfolds an update. -/

namespace Sys2Proof.Machine

@[simp] theorem StackSel.other_other (sel : StackSel) : sel.other.other = sel := by cases sel <;> rfl
@[simp] theorem StackSel.other_ne (sel : StackSel) : sel.other ≠ sel := by cases sel <;> decide
@[simp] theorem StackSel.ne_other (sel : StackSel) : sel ≠ sel.other := by cases sel <;> decide
theorem Mode.opposite_eq (m : Mode) : m.opposite = m.active.other := rfl

/-! ### setStack -/

variable (s : State) (sel : StackSel) (S : Stack)

@[simp] theorem State.setStack_stack : (s.setStack sel S).stack sel = S := by cases sel <;> rfl
@[simp] theorem State.setStack_stack_other : (s.setStack sel S).stack sel.other = s.stack sel.other := by
  cases sel <;> rfl
@[simp] theorem State.setStack_other_stack : (s.setStack sel.other S).stack sel = s.stack sel := by cases sel <;> rfl
@[simp] theorem State.setStack_ram : (s.setStack sel S).ram = s.ram := by cases sel <;> rfl
@[simp] theorem State.setStack_dev : (s.setStack sel S).dev = s.dev := by cases sel <;> rfl
@[simp] theorem State.setStack_act : (s.setStack sel S).act = s.act := by cases sel <;> rfl
@[simp] theorem State.setStack_fault : (s.setStack sel S).fault = s.fault := by cases sel <;> rfl
@[simp] theorem State.setStack_inputs : (s.setStack sel S).inputs = s.inputs := by cases sel <;> rfl
@[simp] theorem State.setStack_calls : (s.setStack sel S).calls = s.calls := by cases sel <;> rfl
@[simp] theorem State.setStack_draws : (s.setStack sel S).draws = s.draws := by cases sel <;> rfl
@[simp] theorem State.setStack_setStack (T : Stack) : (s.setStack sel S).setStack sel T = s.setStack sel T := by
  cases sel <;> rfl
@[simp] theorem State.stack_work : s.stack .work = s.wst := rfl
@[simp] theorem State.stack_ret : s.stack .ret = s.rst := rfl
@[simp] theorem State.setStack_work_rst : (s.setStack .work S).rst = s.rst := rfl
@[simp] theorem State.setStack_work_wst : (s.setStack .work S).wst = S := rfl
@[simp] theorem State.setStack_ret_rst : (s.setStack .ret S).rst = S := rfl
@[simp] theorem State.setStack_ret_wst : (s.setStack .ret S).wst = s.wst := rfl

/-! ### setRam -/

variable (m : Memory)

@[simp] theorem State.setRam_ram : (s.setRam m).ram = m := rfl
@[simp] theorem State.setRam_stack : (s.setRam m).stack sel = s.stack sel := by cases sel <;> rfl
@[simp] theorem State.setRam_wst : (s.setRam m).wst = s.wst := rfl
@[simp] theorem State.setRam_rst : (s.setRam m).rst = s.rst := rfl
@[simp] theorem State.setRam_dev : (s.setRam m).dev = s.dev := rfl
@[simp] theorem State.setRam_act : (s.setRam m).act = s.act := rfl
@[simp] theorem State.setRam_fault : (s.setRam m).fault = s.fault := rfl
@[simp] theorem State.setRam_inputs : (s.setRam m).inputs = s.inputs := rfl
@[simp] theorem State.setRam_calls : (s.setRam m).calls = s.calls := rfl
@[simp] theorem State.setRam_draws : (s.setRam m).draws = s.draws := rfl

/-! ### devWrite1, devWrite, devZero -/

variable (a b : Byte)

@[simp] theorem State.devWrite1_stack : (s.devWrite1 a b).stack sel = s.stack sel := by cases sel <;> rfl
@[simp] theorem State.devWrite1_wst : (s.devWrite1 a b).wst = s.wst := rfl
@[simp] theorem State.devWrite1_rst : (s.devWrite1 a b).rst = s.rst := rfl
@[simp] theorem State.devWrite1_ram : (s.devWrite1 a b).ram = s.ram := rfl
@[simp] theorem State.devWrite1_act : (s.devWrite1 a b).act = s.act := rfl
@[simp] theorem State.devWrite1_fault : (s.devWrite1 a b).fault = s.fault := rfl
@[simp] theorem State.devWrite1_inputs : (s.devWrite1 a b).inputs = s.inputs := rfl
@[simp] theorem State.devWrite1_calls : (s.devWrite1 a b).calls = s.calls := rfl
@[simp] theorem State.devWrite1_draws : (s.devWrite1 a b).draws = s.draws := rfl

@[simp] theorem State.devRead1_devWrite1 : (s.devWrite1 a b).devRead1 a = b := by
  simp [State.devRead1, State.devWrite1]

theorem State.devRead1_devWrite1_ne {a x : Byte} (h : x ≠ a) : (s.devWrite1 a b).devRead1 x = s.devRead1 x := by
  have : a.toNat ≠ x.toNat := fun e => h (BitVec.eq_of_toNat_eq e.symm)
  simp [State.devRead1, State.devWrite1, this]

@[simp] theorem State.devRead1_setStack (x : Byte) : (s.setStack sel S).devRead1 x = s.devRead1 x := by cases sel <;> rfl

variable (short : Bool) (v : Short)

@[simp] theorem State.devWrite_wst : (s.devWrite short a v).wst = s.wst := by cases short <;> rfl
@[simp] theorem State.devWrite_rst : (s.devWrite short a v).rst = s.rst := by cases short <;> rfl
@[simp] theorem State.devWrite_stack : (s.devWrite short a v).stack sel = s.stack sel := by
  cases short <;> cases sel <;> rfl
@[simp] theorem State.devWrite_ram : (s.devWrite short a v).ram = s.ram := by cases short <;> rfl
@[simp] theorem State.devWrite_act : (s.devWrite short a v).act = s.act := by cases short <;> rfl
@[simp] theorem State.devWrite_fault : (s.devWrite short a v).fault = s.fault := by cases short <;> rfl
@[simp] theorem State.devWrite_inputs : (s.devWrite short a v).inputs = s.inputs := by cases short <;> rfl
@[simp] theorem State.devWrite_calls : (s.devWrite short a v).calls = s.calls := by cases short <;> rfl
@[simp] theorem State.devWrite_draws : (s.devWrite short a v).draws = s.draws := by cases short <;> rfl

@[simp] theorem State.devZero_wst : s.devZero.wst = s.wst := rfl
@[simp] theorem State.devZero_rst : s.devZero.rst = s.rst := rfl
@[simp] theorem State.devZero_ram : s.devZero.ram = s.ram := rfl
@[simp] theorem State.devZero_act : s.devZero.act = s.act := rfl
@[simp] theorem State.devZero_fault : s.devZero.fault = s.fault := rfl
@[simp] theorem State.devZero_inputs : s.devZero.inputs = s.inputs := rfl
@[simp] theorem State.devZero_calls : s.devZero.calls = s.calls := rfl
@[simp] theorem State.devZero_draws : s.devZero.draws = s.draws := rfl

/-! ### zeroStacks -/

@[simp] theorem State.zeroStacks_wst : s.zeroStacks.wst = Stack.zeroed := rfl
@[simp] theorem State.zeroStacks_rst : s.zeroStacks.rst = Stack.zeroed := rfl
@[simp] theorem State.zeroStacks_stack : s.zeroStacks.stack sel = Stack.zeroed := by cases sel <;> rfl
@[simp] theorem State.zeroStacks_ram : s.zeroStacks.ram = s.ram := rfl
@[simp] theorem State.zeroStacks_dev : s.zeroStacks.dev = s.dev := rfl
@[simp] theorem State.zeroStacks_act : s.zeroStacks.act = s.act := rfl
@[simp] theorem State.zeroStacks_fault : s.zeroStacks.fault = s.fault := rfl
@[simp] theorem State.zeroStacks_inputs : s.zeroStacks.inputs = s.inputs := rfl
@[simp] theorem State.zeroStacks_calls : s.zeroStacks.calls = s.calls := rfl
@[simp] theorem State.zeroStacks_draws : s.zeroStacks.draws = s.draws := rfl

/-! ### setPc, setSusp: everything but the top activation is unchanged -/

variable (pc : Short) (r : Option Suspended)

theorem State.setPc_cons {s : State} {a : Activation} {rest : List Activation} (h : s.act = a :: rest) (pc : Short) :
    s.setPc pc = { s with act := { a with pc := pc } :: rest } := by simp [State.setPc, h]
theorem State.setPc_nil {s : State} (h : s.act = []) (pc : Short) : s.setPc pc = s := by simp [State.setPc, h]
theorem State.setSusp_cons {s : State} {a : Activation} {rest : List Activation} (h : s.act = a :: rest)
    (r : Option Suspended) : s.setSusp r = { s with act := { a with susp := r } :: rest } := by
  simp [State.setSusp, h]
theorem State.setSusp_nil {s : State} (h : s.act = []) (r : Option Suspended) : s.setSusp r = s := by
  simp [State.setSusp, h]

@[simp] theorem State.setPc_wst : (s.setPc pc).wst = s.wst := by unfold State.setPc; split <;> rfl
@[simp] theorem State.setPc_rst : (s.setPc pc).rst = s.rst := by unfold State.setPc; split <;> rfl
@[simp] theorem State.setPc_stack : (s.setPc pc).stack sel = s.stack sel := by cases sel <;> simp
@[simp] theorem State.setPc_ram : (s.setPc pc).ram = s.ram := by unfold State.setPc; split <;> rfl
@[simp] theorem State.setPc_dev : (s.setPc pc).dev = s.dev := by unfold State.setPc; split <;> rfl
@[simp] theorem State.setPc_fault : (s.setPc pc).fault = s.fault := by unfold State.setPc; split <;> rfl
@[simp] theorem State.setPc_inputs : (s.setPc pc).inputs = s.inputs := by unfold State.setPc; split <;> rfl
@[simp] theorem State.setPc_calls : (s.setPc pc).calls = s.calls := by unfold State.setPc; split <;> rfl
@[simp] theorem State.setPc_draws : (s.setPc pc).draws = s.draws := by unfold State.setPc; split <;> rfl
@[simp] theorem State.setPc_act_tail : (s.setPc pc).act.tail = s.act.tail := by
  unfold State.setPc; split <;> simp [*]
@[simp] theorem State.setPc_act_length : (s.setPc pc).act.length = s.act.length := by
  unfold State.setPc; split <;> simp [*]

@[simp] theorem State.setSusp_wst : (s.setSusp r).wst = s.wst := by unfold State.setSusp; split <;> rfl
@[simp] theorem State.setSusp_rst : (s.setSusp r).rst = s.rst := by unfold State.setSusp; split <;> rfl
@[simp] theorem State.setSusp_stack : (s.setSusp r).stack sel = s.stack sel := by cases sel <;> simp
@[simp] theorem State.setSusp_ram : (s.setSusp r).ram = s.ram := by unfold State.setSusp; split <;> rfl
@[simp] theorem State.setSusp_dev : (s.setSusp r).dev = s.dev := by unfold State.setSusp; split <;> rfl
@[simp] theorem State.setSusp_fault : (s.setSusp r).fault = s.fault := by unfold State.setSusp; split <;> rfl
@[simp] theorem State.setSusp_inputs : (s.setSusp r).inputs = s.inputs := by unfold State.setSusp; split <;> rfl
@[simp] theorem State.setSusp_calls : (s.setSusp r).calls = s.calls := by unfold State.setSusp; split <;> rfl
@[simp] theorem State.setSusp_draws : (s.setSusp r).draws = s.draws := by unfold State.setSusp; split <;> rfl
@[simp] theorem State.setSusp_act_tail : (s.setSusp r).act.tail = s.act.tail := by
  unfold State.setSusp; split <;> simp [*]
@[simp] theorem State.setSusp_act_length : (s.setSusp r).act.length = s.act.length := by
  unfold State.setSusp; split <;> simp [*]
@[simp] theorem State.devRead1_setPc (x : Byte) : (s.setPc pc).devRead1 x = s.devRead1 x := by simp [State.devRead1]
@[simp] theorem State.devRead1_setSusp (x : Byte) : (s.setSusp r).devRead1 x = s.devRead1 x := by
  simp [State.devRead1]

/-! ### Replacing the activations -/

theorem State.stack_withAct (acts : List Activation) : ({ s with act := acts } : State).stack sel = s.stack sel := by
  cases sel <;> rfl

theorem State.devRead1_withAct (acts : List Activation) (x : Byte) :
    ({ s with act := acts } : State).devRead1 x = s.devRead1 x := rfl

/-! ### pushByte, pushW on a state -/

theorem State.pushByte_eq : s.pushByte sel b = s.setStack sel ((s.stack sel).push1 b) := rfl
theorem State.pushW_eq : s.pushW sel short v = s.setStack sel ((s.stack sel).pushW short v) := rfl

/-! ### halt, evaluate -/

@[simp] theorem State.halt_act : s.halt.act = s.act.tail := rfl
@[simp] theorem State.halt_ram : s.halt.ram = s.ram := rfl
@[simp] theorem State.halt_dev : s.halt.dev = s.dev := rfl
@[simp] theorem State.halt_wst : s.halt.wst = s.wst := rfl
@[simp] theorem State.halt_rst : s.halt.rst = s.rst := rfl
@[simp] theorem State.halt_fault : s.halt.fault = s.fault := rfl
@[simp] theorem State.halt_inputs : s.halt.inputs = s.inputs := rfl
@[simp] theorem State.halt_calls : s.halt.calls = s.calls := rfl
@[simp] theorem State.halt_draws : s.halt.draws = s.draws := rfl

/-- Starting an evaluation does one of two things. -/
theorem State.evaluate_cases :
    (s.act.length < Config.maxNest ∧ s.evaluate v = { s with act := { pc := v } :: s.act }) ∨
    (Config.maxNest ≤ s.act.length ∧ s.evaluate v = { s with fault := some .nestOverflow }) := by
  unfold State.evaluate
  split
  · exact .inl ⟨‹_›, rfl⟩
  · exact .inr ⟨by omega, rfl⟩

@[simp] theorem State.evaluate_ram : (s.evaluate v).ram = s.ram := by unfold State.evaluate; split <;> rfl
@[simp] theorem State.evaluate_dev : (s.evaluate v).dev = s.dev := by unfold State.evaluate; split <;> rfl
@[simp] theorem State.evaluate_wst : (s.evaluate v).wst = s.wst := by unfold State.evaluate; split <;> rfl
@[simp] theorem State.evaluate_rst : (s.evaluate v).rst = s.rst := by unfold State.evaluate; split <;> rfl

/-! ### Resets -/

variable (img : List Byte)

@[simp] theorem State.hardReset_act : (s.hardReset img).act = s.act := rfl
@[simp] theorem State.hardReset_fault : (s.hardReset img).fault = s.fault := rfl
@[simp] theorem State.hardReset_calls : (s.hardReset img).calls = s.calls := rfl
@[simp] theorem State.hardReset_ram : (s.hardReset img).ram = loadImage (zeroRam s.ram false) img := rfl
@[simp] theorem State.hardReset_stack : (s.hardReset img).stack sel = Stack.zeroed := by cases sel <;> rfl
@[simp] theorem State.softReset_act : (s.softReset img).act = s.act := rfl
@[simp] theorem State.softReset_fault : (s.softReset img).fault = s.fault := rfl
@[simp] theorem State.softReset_calls : (s.softReset img).calls = s.calls := rfl
@[simp] theorem State.softReset_ram : (s.softReset img).ram = loadImage (zeroRam s.ram true) img := rfl
@[simp] theorem State.softReset_stack : (s.softReset img).stack sel = Stack.zeroed := by cases sel <;> rfl

@[simp] theorem Stack.zeroed_cell (i : Byte) : Stack.zeroed.cell i = 0 := by simp [Stack.cell, Stack.zeroed]
@[simp] theorem Stack.zeroed_ptr : Stack.zeroed.ptr = 0 := rfl
@[simp] theorem State.devZero_devRead1 (x : Byte) : s.devZero.devRead1 x = 0 := by
  simp [State.devRead1, State.devZero]

end Sys2Proof.Machine
end

