-- ==== Sys2Proof/Laws/Stack.lean ====
section
/-! SUPPORT. The stacks: what a push and a pop do to the pointer and to every cell (10_state.md R25 to R29). -/

namespace Sys2Proof.Machine

variable (S : Stack) (b : Byte) (v : Short) (p i : Byte) (short : Bool)

/-! ### Cells -/

@[simp] theorem Stack.push1_ptr : (S.push1 b).ptr = S.ptr + 1 := rfl
@[simp] theorem Stack.setPtr_ptr : (S.setPtr p).ptr = p := rfl
@[simp] theorem Stack.setPtr_cell : (S.setPtr p).cell i = S.cell i := rfl
@[simp] theorem Stack.setPtr_setPtr (q : Byte) : (S.setPtr p).setPtr q = S.setPtr q := rfl
@[simp] theorem Stack.setPtr_self : S.setPtr S.ptr = S := rfl

@[simp] theorem Stack.push1_cell_self : (S.push1 b).cell S.ptr = b := by simp [Stack.cell, Stack.push1]

theorem Stack.push1_cell_ne {i : Byte} (h : i ≠ S.ptr) : (S.push1 b).cell i = S.cell i := by
  have : S.ptr.toNat ≠ i.toNat := fun e => h (BitVec.eq_of_toNat_eq e.symm)
  simp [Stack.cell, Stack.push1, this]

theorem Stack.push1_cell : (S.push1 b).cell i = if i = S.ptr then b else S.cell i := by
  split
  · next h => subst h; simp
  · next h => exact S.push1_cell_ne b h

/-! ### Pops in closed form -/

@[simp] theorem Stack.pop1_eq : S.pop1 = (S.peek 0, S.setPtr (S.ptr - 1)) := by
  simp [Stack.pop1, Stack.peek, Stack.setPtr]

theorem Stack.setPtr_peek (o : Byte) : (S.setPtr p).peek o = S.cell (p - 1 - o) := rfl

theorem Stack.pop2_eq : S.pop2 = (shortOf (S.peek 1) (S.peek 0), S.setPtr (S.ptr - 2)) := by
  have h : S.ptr - 1 - 1 = S.ptr - 2 := by bv_omega
  have h' : S.ptr - 2 - 0 = S.ptr - 2 := by bv_omega
  simp only [Stack.pop2, Stack.pop1_eq, Stack.setPtr_peek, Stack.setPtr_ptr, Stack.setPtr_setPtr, h, h']
  rw [show S.peek 1 = S.cell (S.ptr - 2) from congrArg S.cell h]

theorem Stack.popW_eq : S.popW short =
    (if short then shortOf (S.peek 1) (S.peek 0) else zextByte (S.peek 0),
     S.setPtr (S.ptr - if short then 2 else 1)) := by
  cases short
  · simp [Stack.popW]
  · simp [Stack.popW, Stack.pop2_eq]

/-! ### Round trips -/

theorem Stack.pop1_push1 : (S.push1 b).pop1 = (b, { dat := (S.push1 b).dat, ptr := S.ptr }) := by
  simp [Stack.peek, Stack.setPtr]

theorem Stack.pushW_ptr : (S.pushW short v).ptr = S.ptr + if short then 2 else 1 := by
  cases short
  · simp [Stack.pushW]
  · simp only [Stack.pushW, Stack.push2, if_true, Stack.push1_ptr, BitVec.add_assoc]
    rfl

/-! ### A run of pushes -/

/-- Push the bytes of a list, first to last. -/
def Stack.pushAll (S : Stack) (bs : List Byte) : Stack := bs.foldl Stack.push1 S

@[simp] theorem Stack.pushAll_nil : S.pushAll [] = S := rfl
@[simp] theorem Stack.pushAll_cons (bs : List Byte) : S.pushAll (b :: bs) = (S.push1 b).pushAll bs := rfl
theorem Stack.pushAll_append (bs cs : List Byte) : S.pushAll (bs ++ cs) = (S.pushAll bs).pushAll cs := by
  simp [Stack.pushAll]

theorem Stack.pushW_eq_pushAll :
    S.pushW short v = S.pushAll (if short then [hiByte v, loByte v] else [loByte v]) := by
  cases short <;> rfl

theorem Stack.pushAll_ptr (bs : List Byte) : (S.pushAll bs).ptr = S.ptr + BitVec.ofNat 8 bs.length := by
  induction bs generalizing S with
  | nil => simp
  | cons b bs ih =>
    simp only [Stack.pushAll_cons, ih, Stack.push1_ptr, List.length_cons, BitVec.add_assoc]
    congr 1
    apply BitVec.eq_of_toNat_eq
    simp [Nat.add_comm]

/-- A cell that lies at or past the end of the pushed run, counted from the pointer, is as before. -/
theorem Stack.pushAll_cell_old (bs : List Byte) (h : bs.length ≤ (i - S.ptr).toNat) :
    (S.pushAll bs).cell i = S.cell i := by
  induction bs generalizing S with
  | nil => rfl
  | cons b bs ih =>
    simp only [List.length_cons] at h
    have e : (i - (S.ptr + 1)).toNat = (i - S.ptr).toNat - 1 := by bv_omega
    rw [Stack.pushAll_cons, ih _ (by simp only [Stack.push1_ptr, e]; omega)]
    apply Stack.push1_cell_ne
    rintro rfl
    simp at h

/-- Up to 256 pushed bytes lie one after another from the pointer. -/
theorem Stack.pushAll_cell_new (bs : List Byte) (j : Nat) (h : j < bs.length) (hl : bs.length ≤ 256) :
    (S.pushAll bs).cell (S.ptr + BitVec.ofNat 8 j) = bs[j] := by
  induction bs generalizing S j with
  | nil => simp at h
  | cons b bs ih =>
    simp only [List.length_cons] at h hl
    rw [Stack.pushAll_cons]
    cases j with
    | zero =>
      rw [Stack.pushAll_cell_old]
      · simp
      · simp only [Stack.push1_ptr]
        have : (S.ptr + BitVec.ofNat 8 0 - (S.ptr + 1)).toNat = 255 := by bv_omega
        omega
    | succ j =>
      have e : S.ptr + BitVec.ofNat 8 (j + 1) = (S.push1 b).ptr + BitVec.ofNat 8 j := by
        simp only [Stack.push1_ptr]
        bv_omega
      rw [e, ih (S.push1 b) j (by omega) (by omega)]
      rfl

end Sys2Proof.Machine
end

