-- ==== Sys2Proof/Laws/Operands.lean ====
section
/-! SUPPORT. The operand template in closed form (40_eval_loop.md R105): which items the pops of each shape give, where
the pointer is after the keep restore, and what the shared operations answer. -/

namespace Sys2Proof.Machine

variable (S : Stack) (short keep : Bool) (m : Mode) (s : State)

/-! ### Pops, as items below the top -/

theorem Stack.setPtr_peek_sub (p d : Byte) : (S.setPtr (S.ptr - p)).peek d = S.peek (p + d) := by
  have e : S.ptr - p - 1 - d = S.ptr - 1 - (p + d) := by abel
  exact congrArg S.cell e

theorem Stack.setPtr_itemAt (p d : Byte) (w : Bool) :
    (S.setPtr (S.ptr - p)).itemAt w d = S.itemAt w (p + d) := by
  simp only [Stack.itemAt, Stack.setPtr_peek_sub, BitVec.add_assoc]

theorem Stack.popW_item : S.popW short = (S.item short 0, S.setPtr (S.ptr - BitVec.ofNat 8 (widthOf short))) := by
  cases short <;> simp [Stack.popW_eq, Stack.item, Stack.itemAt, widthOf]

theorem Stack.pop2_item : S.pop2 = (S.itemAt true 0, S.setPtr (S.ptr - 2)) := by
  simp [Stack.pop2_eq, Stack.itemAt]

theorem popsWW_item : popsWW short S =
    ((S.item short 1, S.item short 0), S.setPtr (S.ptr - BitVec.ofNat 8 (2 * widthOf short))) := by
  cases short <;>
    simp [popsWW, Stack.popW_item, Stack.setPtr_itemAt, Stack.item, widthOf, BitVec.sub_sub]

theorem popsWWW_item : popsWWW short S =
    ((S.item short 2, S.item short 1, S.item short 0),
      S.setPtr (S.ptr - BitVec.ofNat 8 (3 * widthOf short))) := by
  cases short <;>
    simp [popsWWW, Stack.popW_item, Stack.setPtr_itemAt, Stack.item, widthOf, BitVec.sub_sub]

theorem popsWB_item : popsWB short S =
    ((S.peek (BitVec.ofNat 8 (widthOf short)), S.item short 0),
      S.setPtr (S.ptr - BitVec.ofNat 8 (widthOf short + 1))) := by
  cases short <;>
    simp [popsWB, Stack.popW_item, Stack.setPtr_peek_sub, Stack.item, widthOf, BitVec.sub_sub]

theorem popsBW_item : popsBW short S =
    ((S.itemAt short 1, S.peek 0), S.setPtr (S.ptr - BitVec.ofNat 8 (1 + widthOf short))) := by
  cases short <;>
    simp [popsBW, Stack.popW_item, Stack.setPtr_itemAt, Stack.item, widthOf, BitVec.sub_sub]

theorem popsSW_item : popsSW short S =
    ((S.itemAt short 2, S.itemAt true 0), S.setPtr (S.ptr - BitVec.ofNat 8 (2 + widthOf short))) := by
  cases short <;>
    simp [popsSW, Stack.popW_item, Stack.pop2_item, Stack.setPtr_itemAt, Stack.item, widthOf, BitVec.sub_sub]

/-! ### The template -/

theorem Stack.restore_setPtr (p : Byte) :
    (S.setPtr p).restore keep S.ptr = S.setPtr (if keep then S.ptr else p) := by
  cases keep <;> rfl

/-- Whatever the shape, the head of the template gives the popped value and leaves the active stack as it was, its
pointer moved below the operands or, in keep mode, where it stood. -/
theorem takeOperands_eq {α : Type} {pops : Stack → α × Stack} {v : α} {n : Nat}
    (h : pops (s.stack m.active) =
      (v, (s.stack m.active).setPtr ((s.stack m.active).ptr - BitVec.ofNat 8 n))) :
    takeOperands m pops s =
      (v, s.setStack m.active ((s.stack m.active).setPtr ((s.stack m.active).baseAfter m.keep n))) := by
  simp only [takeOperands, h, Stack.restore_setPtr, Stack.baseAfter]

/-- The active stack after `n` bytes were popped and the bytes `bs` pushed. -/
def Stack.after (S : Stack) (keep : Bool) (n : Nat) (bs : List Byte) : Stack :=
  (S.setPtr (S.baseAfter keep n)).pushAll bs

theorem Stack.after_became (n : Nat) (bs : List Byte) (h : bs.length ≤ 256) :
    S.Became keep n bs (S.after keep n bs) where
  ptr := by rw [Stack.after, Stack.pushAll_ptr, Stack.setPtr_ptr]
  new j hj := Stack.pushAll_cell_new _ bs j hj h
  old i hi := by
    rw [Stack.after, Stack.pushAll_cell_old _ _ _ hi, Stack.setPtr_cell]

theorem Stack.after_nil (n : Nat) : S.after keep n [] = S.setPtr (S.baseAfter keep n) := rfl

theorem Stack.after_pushW (n : Nat) (bs : List Byte) (w : Bool) (v : Short) :
    (S.after keep n bs).pushW w v = S.after keep n (bs ++ bytesOf w v) := by
  rw [Stack.after, Stack.after, Stack.pushAll_append, Stack.pushW_eq_pushAll, bytesOf]

theorem Stack.after_push1 (n : Nat) (bs : List Byte) (b : Byte) :
    (S.after keep n bs).push1 b = S.after keep n (bs ++ [b]) := by
  rw [Stack.after, Stack.after, Stack.pushAll_append]
  rfl

theorem Stack.pushW_after (w : Bool) (v : Short) : S.pushW w v = S.after false 0 (bytesOf w v) := by
  have h : S.setPtr (S.baseAfter false 0) = S := by simp [Stack.baseAfter]
  rw [Stack.after, h, Stack.pushW_eq_pushAll, bytesOf]

theorem Stack.push1_after (b : Byte) : S.push1 b = S.after false 0 [b] := by
  have h : S.setPtr (S.baseAfter false 0) = S := by simp [Stack.baseAfter]
  rw [Stack.after, h]
  rfl

theorem bytesOf_length (w : Bool) (v : Short) : (bytesOf w v).length = widthOf w := by cases w <;> rfl

/-- Pops of one shape, then nothing. -/
theorem takeOperands_after {α : Type} {pops : Stack → α × Stack} {v : α} {n : Nat}
    (h : pops (s.stack m.active) =
      (v, (s.stack m.active).setPtr ((s.stack m.active).ptr - BitVec.ofNat 8 n))) :
    takeOperands m pops s = (v, s.setStack m.active ((s.stack m.active).after m.keep n [])) :=
  takeOperands_eq m s h

/-! ### Pushes after the template -/

theorem State.setStack_after_pushW (sel : StackSel) (n : Nat) (bs : List Byte) (w : Bool) (v : Short) :
    (s.setStack sel (S.after keep n bs)).pushW sel w v = s.setStack sel (S.after keep n (bs ++ bytesOf w v)) := by
  rw [State.pushW_eq, State.setStack_stack, State.setStack_setStack, Stack.after_pushW]

theorem State.setStack_after_pushByte (sel : StackSel) (n : Nat) (bs : List Byte) (b : Byte) :
    (s.setStack sel (S.after keep n bs)).pushByte sel b = s.setStack sel (S.after keep n (bs ++ [b])) := by
  rw [State.pushByte_eq, State.setStack_stack, State.setStack_setStack, Stack.after_push1]

/-! ### Shared operations -/

theorem unaryOp_eq (f : Short → Short) : unaryOp m f s =
    .next (s.setStack m.active ((s.stack m.active).after m.keep (widthOf m.short)
      (bytesOf m.short (f ((s.stack m.active).item m.short 0))))) := by
  rw [unaryOp, takeOperands_after m s (Stack.popW_item _ m.short)]
  simp only [State.setStack_after_pushW, List.nil_append]

theorem binaryOp_eq (f : Short → Short → Short) : binaryOp m f s =
    .next (s.setStack m.active ((s.stack m.active).after m.keep (2 * widthOf m.short)
      (bytesOf m.short (f ((s.stack m.active).item m.short 1) ((s.stack m.active).item m.short 0))))) := by
  rw [binaryOp, takeOperands_after m s (popsWW_item _ m.short)]
  simp only [State.setStack_after_pushW, List.nil_append]

theorem compareOp_eq (rel : Short → Short → Bool) : compareOp m rel s =
    .next (s.setStack m.active ((s.stack m.active).after m.keep (2 * widthOf m.short)
      [boolByte (rel ((s.stack m.active).item m.short 1) ((s.stack m.active).item m.short 0))])) := by
  rw [compareOp, takeOperands_after m s (popsWW_item _ m.short)]
  simp only [State.setStack_after_pushByte, List.nil_append]

theorem running_cons {s : State} {a : Activation} {rest : List Activation} (h : s.act = a :: rest)
    (k : Short → Result) : running s k = k a.pc := by simp [running, h]

theorem running_nil {s : State} (h : s.act = []) (k : Short → Result) : running s k = .refused .noActivation := by
  simp [running, h]

/-- The target of a jump, on integers (44_control.md R184). -/
theorem jumpTarget_eq (w : Bool) (pc t : Short) : jumpTarget w pc t = targetOf w pc t := by
  cases w
  · simp [jumpTarget, targetOf, relAddr, trunc16, add_sextByte]
  · rfl

end Sys2Proof.Machine
end

