-- ==== Sys2Proof/Laws/Exec.lean ====
section
/-! SUPPORT. What the meanings answer, in closed form: one equation for each meaning that is not one line over a shared
operation of Laws/Operands.lean. `S.after keep n bs` is the stack after `n` bytes were popped and `bs` pushed. -/

namespace Sys2Proof.Machine

variable (m : Mode) (s : State)

/-! ### Stack operations -/

theorem execPop_eq : execPop m s =
    .next (s.setStack m.active ((s.stack m.active).after m.keep (widthOf m.short) [])) := by
  rw [execPop, takeOperands_after m s (Stack.popW_item _ m.short)]

theorem execSwp_eq : execSwp m s =
    .next (s.setStack m.active ((s.stack m.active).after m.keep (2 * widthOf m.short)
      (bytesOf m.short ((s.stack m.active).item m.short 0) ++
       bytesOf m.short ((s.stack m.active).item m.short 1)))) := by
  rw [execSwp, takeOperands_after m s (popsWW_item _ m.short)]
  simp only [State.setStack_after_pushW, List.nil_append]

theorem execRot_eq : execRot m s =
    .next (s.setStack m.active ((s.stack m.active).after m.keep (3 * widthOf m.short)
      (bytesOf m.short ((s.stack m.active).item m.short 1) ++
       bytesOf m.short ((s.stack m.active).item m.short 0) ++
       bytesOf m.short ((s.stack m.active).item m.short 2)))) := by
  rw [execRot, takeOperands_after m s (popsWWW_item _ m.short)]
  simp only [State.setStack_after_pushW, List.nil_append]

theorem execDup_eq : execDup m s =
    .next (s.setStack m.active ((s.stack m.active).after m.keep (widthOf m.short)
      (bytesOf m.short ((s.stack m.active).item m.short 0) ++
       bytesOf m.short ((s.stack m.active).item m.short 0)))) := by
  rw [execDup, takeOperands_after m s (Stack.popW_item _ m.short)]
  simp only [State.setStack_after_pushW, List.nil_append]

theorem execOvr_eq : execOvr m s =
    .next (s.setStack m.active ((s.stack m.active).after m.keep (2 * widthOf m.short)
      (bytesOf m.short ((s.stack m.active).item m.short 1) ++
       bytesOf m.short ((s.stack m.active).item m.short 0) ++
       bytesOf m.short ((s.stack m.active).item m.short 1)))) := by
  rw [execOvr, takeOperands_after m s (popsWW_item _ m.short)]
  simp only [State.setStack_after_pushW, List.nil_append]

theorem execSft_eq : execSft m s =
    .next (s.setStack m.active ((s.stack m.active).after m.keep (1 + widthOf m.short)
      (bytesOf m.short (shiftBy ((s.stack m.active).peek 0) ((s.stack m.active).itemAt m.short 1))))) := by
  rw [execSft, takeOperands_after m s (popsBW_item _ m.short)]
  simp only [State.setStack_after_pushW, List.nil_append]

/-! ### Stack transfer -/

theorem execSth_eq : execSth m s =
    .next ((s.setStack m.active ((s.stack m.active).after m.keep (widthOf m.short) [])).setStack m.active.other
      ((s.stack m.active.other).after false 0 (bytesOf m.short ((s.stack m.active).item m.short 0)))) := by
  rw [execSth, takeOperands_after m s (Stack.popW_item _ m.short)]
  simp only [State.pushW_eq, Mode.opposite_eq, State.setStack_stack_other, Stack.pushW_after]

/-! ### Loads and stores -/

theorem Stack.pop1_item (S : Stack) : S.pop1 = (S.peek 0, S.setPtr (S.ptr - BitVec.ofNat 8 1)) := S.pop1_eq

theorem Stack.pop2_item' (S : Stack) : S.pop2 = (S.itemAt true 0, S.setPtr (S.ptr - BitVec.ofNat 8 2)) := S.pop2_item

theorem execLdz_eq : execLdz m s =
    .next (s.setStack m.active ((s.stack m.active).after m.keep 1
      (bytesOf m.short (zpRead s.ram m.short ((s.stack m.active).peek 0))))) := by
  rw [execLdz, takeOperands_after m s (Stack.pop1_item _)]
  simp only [State.setStack_after_pushW, List.nil_append]

theorem execLda_eq : execLda m s =
    .next (s.setStack m.active ((s.stack m.active).after m.keep 2
      (bytesOf m.short (memRead s.ram m.short ((s.stack m.active).itemAt true 0))))) := by
  rw [execLda, takeOperands_after m s (Stack.pop2_item' _)]
  simp only [State.setStack_after_pushW, List.nil_append]

theorem execStz_eq : execStz m s =
    .next ((s.setStack m.active ((s.stack m.active).after m.keep (1 + widthOf m.short) [])).setRam
      (zpWrite s.ram m.short ((s.stack m.active).peek 0) ((s.stack m.active).itemAt m.short 1))) := by
  rw [execStz, takeOperands_after m s (popsBW_item _ m.short)]

theorem execSta_eq : execSta m s =
    .next ((s.setStack m.active ((s.stack m.active).after m.keep (2 + widthOf m.short) [])).setRam
      (memWrite s.ram m.short ((s.stack m.active).itemAt true 0) ((s.stack m.active).itemAt m.short 2))) := by
  rw [execSta, takeOperands_after m s (popsSW_item _ m.short)]

/-! ### Meanings that need the program counter: in a running evaluation -/

section
variable {s : State} {a : Activation} {rest : List Activation} (h : s.act = a :: rest)
include h

theorem execLdr_eq : execLdr m s =
    .next (s.setStack m.active ((s.stack m.active).after m.keep 1
      (bytesOf m.short (memRead s.ram m.short (relAddr a.pc ((s.stack m.active).peek 0)))))) := by
  rw [execLdr, running_cons h, takeOperands_after m s (Stack.pop1_item _)]
  simp only [State.setStack_after_pushW, List.nil_append]

theorem execStr_eq : execStr m s =
    .next ((s.setStack m.active ((s.stack m.active).after m.keep (1 + widthOf m.short) [])).setRam
      (memWrite s.ram m.short (relAddr a.pc ((s.stack m.active).peek 0))
        ((s.stack m.active).itemAt m.short 1))) := by
  rw [execStr, running_cons h, takeOperands_after m s (popsBW_item _ m.short)]

theorem execJmp_eq : execJmp m s =
    .next { s.setStack m.active ((s.stack m.active).after m.keep (widthOf m.short) []) with
      act := { a with pc := jumpTarget m.short a.pc ((s.stack m.active).item m.short 0) } :: rest } := by
  rw [execJmp, running_cons h, takeOperands_after m s (Stack.popW_item _ m.short)]
  simp only [State.setPc_cons (State.setStack_act .. |>.trans h)]

theorem execJcn_eq : execJcn m s =
    .next { s.setStack m.active ((s.stack m.active).after m.keep (widthOf m.short + 1) []) with
      act := { a with pc := if condTrue ((s.stack m.active).peek (BitVec.ofNat 8 (widthOf m.short))) = true then
                              jumpTarget m.short a.pc ((s.stack m.active).item m.short 0) else a.pc } :: rest } := by
  have e (sel S) : s.setStack sel S = { s.setStack sel S with act := a :: rest } := by cases sel <;> simp [State.setStack, ← h]
  rw [execJcn, running_cons h, takeOperands_after m s (popsWB_item _ m.short)]
  simp only [State.setPc_cons (State.setStack_act .. |>.trans h)]
  split
  · rfl
  · exact congrArg _ (e _ _)

theorem execJsr_eq : execJsr m s =
    .next { (s.setStack m.active ((s.stack m.active).after m.keep (widthOf m.short) [])).setStack m.active.other
        ((s.stack m.active.other).after false 0 [hiByte a.pc, loByte a.pc]) with
      act := { a with pc := jumpTarget m.short a.pc ((s.stack m.active).item m.short 0) } :: rest } := by
  rw [execJsr, running_cons h, takeOperands_after m s (Stack.popW_item _ m.short)]
  simp only [State.pushW_eq, Mode.opposite_eq, State.setStack_stack_other, Stack.pushW_after]
  rw [State.setPc_cons (by simp only [State.setStack_act]; exact h)]
  rfl

theorem execBrk_eq : execBrk s = .next { s with act := rest } := by
  rw [execBrk, running_cons h]
  simp [State.halt, h]

theorem execJci_eq (d : Short) : execJci d s =
    .next { s.setStack .work (s.wst.after false 1 []) with
      act := { a with pc := if condTrue (s.wst.peek 0) = true then a.pc + 2 + d else a.pc + 2 } :: rest } := by
  rw [execJci, running_cons h, Stack.pop1_eq]
  simp only [State.setPc_cons (State.setStack_act .. |>.trans h), immTarget]
  rfl

theorem execJmi_eq (d : Short) : execJmi d s = .next { s with act := { a with pc := a.pc + 2 + d } :: rest } := by
  rw [execJmi, running_cons h, State.setPc_cons h, immTarget]

theorem execJsi_eq (d : Short) : execJsi d s =
    .next { s.setStack .ret (s.rst.after false 0 [hiByte (a.pc + 2), loByte (a.pc + 2)]) with
      act := { a with pc := a.pc + 2 + d } :: rest } := by
  rw [execJsi, running_cons h, State.pushW_eq, Stack.pushW_after,
    State.setPc_cons (State.setStack_act .. |>.trans h), immTarget]
  rfl

theorem execLit_eq (b : Byte) : execLit b s =
    .next { s.setStack .work (s.wst.after false 0 [b]) with act := { a with pc := a.pc + 1 } :: rest } := by
  rw [execLit, running_cons h, State.pushByte_eq, Stack.push1_after,
    State.setPc_cons (State.setStack_act .. |>.trans h)]
  rfl

theorem execLitr_eq (b : Byte) : execLitr b s =
    .next { s.setStack .ret (s.rst.after false 0 [b]) with act := { a with pc := a.pc + 1 } :: rest } := by
  rw [execLitr, running_cons h, State.pushByte_eq, Stack.push1_after,
    State.setPc_cons (State.setStack_act .. |>.trans h)]
  rfl

theorem execLit2_eq (v : Short) : execLit2 v s =
    .next { s.setStack .work (s.wst.after false 0 [hiByte v, loByte v]) with
      act := { a with pc := a.pc + 2 } :: rest } := by
  rw [execLit2, running_cons h, State.pushW_eq, Stack.pushW_after,
    State.setPc_cons (State.setStack_act .. |>.trans h)]
  rfl

theorem execLit2r_eq (v : Short) : execLit2r v s =
    .next { s.setStack .ret (s.rst.after false 0 [hiByte v, loByte v]) with
      act := { a with pc := a.pc + 2 } :: rest } := by
  rw [execLit2r, running_cons h, State.pushW_eq, Stack.pushW_after,
    State.setPc_cons (State.setStack_act .. |>.trans h)]
  rfl

theorem execDei_eq : execDei m s =
    .next { s.setStack m.active ((s.stack m.active).after m.keep 1 []) with
      act := { a with susp := some (if m.short then .inHigh ((s.stack m.active).peek 0) m.active
                                    else .inByte ((s.stack m.active).peek 0) m.active) } :: rest } := by
  rw [execDei, running_cons h, takeOperands_after m s (Stack.pop1_item _)]
  simp only [State.setSusp_cons (State.setStack_act .. |>.trans h)]

/-- DEO in both widths: the first raw write, then the suspension at the first output intercept. -/
theorem execDeo_eq :
    let S := s.stack m.active
    let v := S.itemAt m.short 1
    execDeo m s =
      .next { (s.setStack m.active (S.after m.keep (1 + widthOf m.short) [])).devWrite1 (S.peek 0)
          (if m.short then hiByte v else loByte v) with
        act := { a with susp := some (if m.short then .outHigh (S.peek 0) (loByte v) (S.peek 0 + 1)
                                      else .outByte (S.peek 0)) } :: rest } := by
  intro S v
  rw [execDeo, running_cons h, takeOperands_after m s (popsBW_item _ m.short)]
  simp only
  rw [State.setSusp_cons (a := a) (rest := rest) (by simp [h])]

end

end Sys2Proof.Machine
end

