-- ==== Sys2Proof/Laws/Memory.lean ====
section
/-! SUPPORT. General RAM: read after write, the canonical form is kept by every operation, and equal readings are equal
data (20_memory.md R51 to R58, R68, R69). -/

namespace Sys2Proof.Machine

/-! ### Keys -/

theorem ramKey_lt (bank : Bank) (off : Short) : ramKey bank off < Config.ramBytes := by
  have := bank.isLt
  have := off.isLt
  simp only [ramKey, Config.ramBytes, Config.bankBytes]
  omega

theorem ramKey_inj {b b' : Bank} {o o' : Short} : ramKey b o = ramKey b' o' ↔ b = b' ∧ o = o' := by
  constructor
  · intro h
    have := o.isLt
    have := o'.isLt
    simp only [ramKey, Config.bankBytes] at h
    exact ⟨BitVec.eq_of_toNat_eq (by omega), BitVec.eq_of_toNat_eq (by omega)⟩
  · rintro ⟨rfl, rfl⟩
    rfl

/-! ### The canonical form -/

namespace Memory

theorem wfFrom_cons {lo k : Nat} {v : Byte} {rest : Memory} :
    wfFrom lo ((k, v) :: rest) = true ↔
      lo ≤ k ∧ k < Config.ramBytes ∧ v ≠ unlisted ∧ wfFrom (k + 1) rest = true := by
  simp [wfFrom, and_assoc]

theorem wfFrom_mono {lo lo' : Nat} {m : Memory} (h : lo ≤ lo') (hw : wfFrom lo' m = true) : wfFrom lo m = true := by
  cases m with
  | nil => rfl
  | cons c rest =>
    rw [wfFrom_cons] at *
    exact ⟨by omega, hw.2⟩

theorem read_below {lo a : Nat} {m : Memory} (hw : wfFrom lo m = true) (h : a < lo) : m.read a = unlisted := by
  induction m generalizing lo with
  | nil => rfl
  | cons c rest ih =>
    obtain ⟨k, v⟩ := c
    rw [wfFrom_cons] at hw
    have : a ≠ k := by omega
    simp only [read, this, if_false]
    exact ih hw.2.2.2 (by omega)

theorem write_wfFrom {lo a : Nat} {b : Byte} {m : Memory} (hw : wfFrom lo m = true) (hlo : lo ≤ a)
    (ha : a < Config.ramBytes) : wfFrom lo (m.write a b) = true := by
  induction m generalizing lo with
  | nil =>
    simp only [write]
    split
    · rfl
    · simp [wfFrom, *]
  | cons c rest ih =>
    obtain ⟨k, v⟩ := c
    rw [wfFrom_cons] at hw
    obtain ⟨h1, h2, h3, h4⟩ := hw
    simp only [write]
    split
    · split
      · simp [wfFrom, *]
      · simp only [wfFrom_cons]
        exact ⟨hlo, ha, ‹_›, by omega, h2, h3, h4⟩
    · split
      · subst a
        split
        · exact wfFrom_mono (by omega) h4
        · rw [wfFrom_cons]
          exact ⟨hlo, ha, ‹_›, h4⟩
      · rw [wfFrom_cons]
        exact ⟨h1, h2, h3, ih h4 (by omega)⟩

/-- Writing inside the address space keeps the canonical form. -/
theorem write_wf {a : Nat} {b : Byte} {m : Memory} (hw : m.wf = true) (ha : a < Config.ramBytes) :
    (m.write a b).wf = true := write_wfFrom hw (Nat.zero_le _) ha

/-- Another byte reads as before, whatever the form of the list. -/
theorem read_write_ne {a x : Nat} {b : Byte} {m : Memory} (h : x ≠ a) : (m.write a b).read x = m.read x := by
  induction m with
  | nil =>
    simp only [write]
    split
    · rfl
    · simp [read, h]
  | cons c rest ih =>
    obtain ⟨k, v⟩ := c
    simp only [write]
    split
    · split <;> simp [read, h]
    · split
      · subst a
        split <;> simp [read, h]
      · simp [read, ih]

theorem read_write_self_from {lo a : Nat} {b : Byte} {m : Memory} (hw : wfFrom lo m = true) :
    (m.write a b).read a = b := by
  induction m generalizing lo with
  | nil =>
    simp only [write]
    split
    · next h => simp [read, h]
    · simp [read]
  | cons c rest ih =>
    obtain ⟨k, v⟩ := c
    rw [wfFrom_cons] at hw
    simp only [write]
    split
    · split
      · next hb =>
        subst hb
        exact read_below (lo := k) (by rw [wfFrom_cons]; exact ⟨by omega, hw.2⟩) ‹_›
      · simp [read]
    · split
      · subst a
        split
        · next hb =>
          subst hb
          exact read_below hw.2.2.2 (by omega)
        · simp [read]
      · simp only [read, if_neg ‹¬a = k›]
        exact ih hw.2.2.2

/-- The byte written is read back. -/
theorem read_write_self {a : Nat} {b : Byte} {m : Memory} (hw : m.wf = true) : (m.write a b).read a = b :=
  read_write_self_from hw

theorem ext_from {lo : Nat} {m n : Memory} (hm : wfFrom lo m = true) (hn : wfFrom lo n = true)
    (h : ∀ a, a < Config.ramBytes → m.read a = n.read a) : m = n := by
  induction m generalizing lo n with
  | nil =>
    cases n with
    | nil => rfl
    | cons c rest =>
      obtain ⟨k, v⟩ := c
      rw [wfFrom_cons] at hn
      have := h k hn.2.1
      simp only [read, if_true] at this
      exact absurd this.symm hn.2.2.1
  | cons c rest ih =>
    obtain ⟨k, v⟩ := c
    have hm' := hm
    rw [wfFrom_cons] at hm
    cases n with
    | nil =>
      have := h k hm.2.1
      simp only [read, if_true] at this
      exact absurd this hm.2.2.1
    | cons c' rest' =>
      obtain ⟨k', v'⟩ := c'
      have hn' := hn
      rw [wfFrom_cons] at hn
      have hk : k = k' := by
        by_contra hne
        rcases Nat.lt_or_gt_of_ne hne with hlt | hlt
        · have e := h k hm.2.1
          rw [read_below (lo := k') (m := (k', v') :: rest') (by rw [wfFrom_cons]; exact ⟨le_refl _, hn.2⟩) hlt] at e
          simp only [read, if_true] at e
          exact hm.2.2.1 e
        · have e := h k' hn.2.1
          rw [read_below (lo := k) (m := (k, v) :: rest) (by rw [wfFrom_cons]; exact ⟨le_refl _, hm.2⟩) hlt] at e
          simp only [read, if_true] at e
          exact hn.2.2.1 e.symm
      subst hk
      have hv : v = v' := by simpa [read] using h k hm.2.1
      subst hv
      congr 1
      apply ih hm.2.2.2 hn.2.2.2
      intro a ha
      by_cases hak : a = k
      · subst hak
        rw [read_below hm.2.2.2 (by omega), read_below hn.2.2.2 (by omega)]
      · simpa [read, hak] using h a ha

end Memory

/-! ### Bank access -/

variable {m : Memory} {bank b' : Bank} {off o : Short} {b : Byte}

theorem bankWrite1_wf (hw : m.wf = true) : (bankWrite1 m bank off b).wf = true := Memory.write_wf hw (ramKey_lt _ _)

theorem bankRead1_bankWrite1_self (hw : m.wf = true) : bankRead1 (bankWrite1 m bank off b) bank off = b :=
  Memory.read_write_self hw

theorem bankRead1_bankWrite1_ne (h : b' ≠ bank ∨ o ≠ off) :
    bankRead1 (bankWrite1 m bank off b) b' o = bankRead1 m b' o :=
  Memory.read_write_ne (fun e => by have := ramKey_inj.1 e; tauto)

theorem bankWrite_wf (short : Bool) (v : Short) (hw : m.wf = true) : (bankWrite m short bank off v).wf = true := by
  cases short
  · exact bankWrite1_wf hw
  · exact bankWrite1_wf (bankWrite1_wf hw)

theorem zpWrite_wf (short : Bool) (a : Byte) (v : Short) (hw : m.wf = true) : (zpWrite m short a v).wf = true := by
  cases short
  · exact bankWrite1_wf hw
  · exact bankWrite1_wf (bankWrite1_wf hw)

/-- A write to one bank leaves the others alone, whatever the form of the list. -/
theorem bankRead1_bankWrite_other_bank (short : Bool) (v : Short) (h : b' ≠ bank) :
    bankRead1 (bankWrite m short bank off v) b' o = bankRead1 m b' o := by
  cases short
  · exact bankRead1_bankWrite1_ne (.inl h)
  · exact (bankRead1_bankWrite1_ne (.inl h)).trans (bankRead1_bankWrite1_ne (.inl h))

theorem bankRead1_zpWrite_other_bank (short : Bool) (a : Byte) (v : Short) (h : b' ≠ 0) :
    bankRead1 (zpWrite m short a v) b' o = bankRead1 m b' o := by
  cases short
  · exact bankRead1_bankWrite1_ne (.inl h)
  · exact (bankRead1_bankWrite1_ne (.inl h)).trans (bankRead1_bankWrite1_ne (.inl h))

/-! ### Bulk operations -/

theorem copyBytes_wf (src : List Byte) (hw : m.wf = true) : (copyBytes m bank off src).wf = true := by
  induction src generalizing m off with
  | nil => exact hw
  | cons b src ih => exact ih (bankWrite1_wf hw)

theorem bulkLoad_wf (src : List Byte) (hw : m.wf = true) : (bulkLoad m src bank off).wf = true := copyBytes_wf _ hw

theorem loadBanks_wf (img : List Byte) (is : List Nat) (hw : m.wf = true) : (loadBanks img is m).wf = true := by
  induction is generalizing m with
  | nil => exact hw
  | cons i is ih => exact ih (bulkLoad_wf _ hw)

theorem loadImage_wf (img : List Byte) (hw : m.wf = true) : (loadImage m img).wf = true :=
  loadBanks_wf _ _ (bulkLoad_wf _ hw)

theorem Memory.filter_wfFrom (p : Host.Cell → Bool) {lo : Nat} (hw : wfFrom lo m = true) :
    wfFrom lo (m.filter p) = true := by
  induction m generalizing lo with
  | nil => rfl
  | cons c rest ih =>
    obtain ⟨k, v⟩ := c
    rw [wfFrom_cons] at hw
    rw [List.filter_cons]
    split
    · rw [wfFrom_cons]
      exact ⟨hw.1, hw.2.1, hw.2.2.1, ih hw.2.2.2⟩
    · exact wfFrom_mono (by omega) (ih hw.2.2.2)

theorem zeroRam_wf (preserve : Bool) (hw : m.wf = true) : (zeroRam m preserve).wf = true := by
  cases preserve
  · rfl
  · exact Memory.filter_wfFrom _ hw

/-- Copied bytes lie from the offset up, as long as they stay inside the bank. -/
theorem bankRead1_copyBytes (src : List Byte) (hw : m.wf = true) (hl : off.toNat + src.length ≤ Config.bankBytes) :
    bankRead1 (copyBytes m bank off src) b' o =
      if b' = bank ∧ off.toNat ≤ o.toNat ∧ o.toNat - off.toNat < src.length
      then src[o.toNat - off.toNat]?.getD 0 else bankRead1 m b' o := by
  induction src generalizing m off with
  | nil => simp [copyBytes]
  | cons b src ih =>
    simp only [List.length_cons, Config.bankBytes] at hl
    have hoff := off.isLt
    have ho := o.isLt
    cases hsrc : src with
    | nil =>
      subst hsrc
      simp only [copyBytes, List.length_cons, List.length_nil]
      by_cases h : b' = bank ∧ o = off
      · obtain ⟨rfl, rfl⟩ := h
        simp [bankRead1_bankWrite1_self hw]
      · rw [bankRead1_bankWrite1_ne (by tauto), if_neg]
        rintro ⟨h1, h2, h3⟩
        exact h ⟨h1, BitVec.eq_of_toNat_eq (by omega)⟩
    | cons c src' =>
      have hlen : src.length = src'.length + 1 := by simp [hsrc]
      have e : (off + 1).toNat = off.toNat + 1 := by bv_omega
      rw [← hsrc, copyBytes, ih (bankWrite1_wf hw) (by rw [e]; simp only [Config.bankBytes]; omega), e]
      by_cases hb : b' = bank
      · subst hb
        by_cases h0 : o = off
        · subst h0
          simp [bankRead1_bankWrite1_self hw]
        · have hne : o.toNat ≠ off.toNat := fun e => h0 (BitVec.eq_of_toNat_eq e)
          rw [bankRead1_bankWrite1_ne (.inr h0)]
          by_cases hin : off.toNat + 1 ≤ o.toNat ∧ o.toNat - (off.toNat + 1) < src.length
          · rw [if_pos ⟨rfl, hin⟩, if_pos ⟨rfl, by omega, by simp only [List.length_cons]; omega⟩]
            have : o.toNat - off.toNat = o.toNat - (off.toNat + 1) + 1 := by omega
            rw [this, List.getElem?_cons_succ]
          · rw [if_neg (by tauto), if_neg]
            rintro ⟨-, h2, h3⟩
            simp only [List.length_cons] at h3
            exact hin ⟨by omega, by omega⟩
      · rw [if_neg (by tauto), if_neg (by tauto), bankRead1_bankWrite1_ne (.inl hb)]

end Sys2Proof.Machine
end

