-- ==== Sys2Proof/Laws/Step.lean ====
section
/-! SUPPORT. The step, case by case, and what a call of the outside can do (40_eval_loop.md R102; 60_exceptions.md R243
to R250). -/

namespace Sys2Proof.Machine

/-! ### Draws -/

@[simp] theorem drawInput_act (s : State) (a : Byte) : (drawInput s a).2.act = s.act := by
  unfold drawInput; split <;> rfl
@[simp] theorem drawInput_ram (s : State) (a : Byte) : (drawInput s a).2.ram = s.ram := by
  unfold drawInput; split <;> rfl
@[simp] theorem drawInput_dev (s : State) (a : Byte) : (drawInput s a).2.dev = s.dev := by
  unfold drawInput; split <;> rfl
@[simp] theorem drawInput_fault (s : State) (a : Byte) : (drawInput s a).2.fault = s.fault := by
  unfold drawInput; split <;> rfl
@[simp] theorem drawInput_calls (s : State) (a : Byte) : (drawInput s a).2.calls = s.calls := by
  unfold drawInput; split <;> rfl
@[simp] theorem drawInput_wst (s : State) (a : Byte) : (drawInput s a).2.wst = s.wst := by
  unfold drawInput; split <;> rfl
@[simp] theorem drawInput_rst (s : State) (a : Byte) : (drawInput s a).2.rst = s.rst := by
  unfold drawInput; split <;> rfl

theorem drawInput_cons {s : State} {b : Byte} {bs : List Byte} (h : s.inputs = b :: bs) (a : Byte) :
    drawInput s a = (b, { s with inputs := bs }) := by simp [drawInput, h]

theorem drawInput_nil {s : State} (h : s.inputs = []) (a : Byte) :
    drawInput s a = (Config.inIntercept s a s.draws, { s with draws := s.draws + 1 }) := by simp [drawInput, h]

@[simp] theorem drawCall_act (s : State) (a : Option Byte) : (drawCall s a).2.act = s.act := by
  unfold drawCall; split <;> rfl
@[simp] theorem drawCall_ram (s : State) (a : Option Byte) : (drawCall s a).2.ram = s.ram := by
  unfold drawCall; split <;> rfl
@[simp] theorem drawCall_dev (s : State) (a : Option Byte) : (drawCall s a).2.dev = s.dev := by
  unfold drawCall; split <;> rfl
@[simp] theorem drawCall_fault (s : State) (a : Option Byte) : (drawCall s a).2.fault = s.fault := by
  unfold drawCall; split <;> rfl
@[simp] theorem drawCall_wst (s : State) (a : Option Byte) : (drawCall s a).2.wst = s.wst := by
  unfold drawCall; split <;> rfl
@[simp] theorem drawCall_rst (s : State) (a : Option Byte) : (drawCall s a).2.rst = s.rst := by
  unfold drawCall; split <;> rfl

theorem drawCall_cons {s : State} {c : PortCall} {cs : List PortCall} (h : s.calls = c :: cs) (a : Option Byte) :
    drawCall s a = (c, { s with calls := cs }) := by simp [drawCall, h]

theorem outsideStep_cons {s : State} {c : PortCall} {cs : List PortCall} (h : s.calls = c :: cs) (a : Option Byte) :
    outsideStep s a = applyCall c { s with calls := cs } := by simp [outsideStep, drawCall_cons h]

/-! ### What a call can do -/

/-- The return of an output handler leaves the records below the top and the pc of the top alone. -/
theorem returnFromOutput_act (s : State) :
    ((returnFromOutput s).act = [] ∧ s.act = []) ∨
    ∃ a a' rest, s.act = a :: rest ∧ (returnFromOutput s).act = a' :: rest ∧ a'.pc = a.pc := by
  unfold returnFromOutput
  split
  · next h => exact .inl ⟨h, h⟩
  · next a rest h =>
    refine .inr ?_
    split
    · exact ⟨a, { a with susp := none }, rest, h, by rw [State.setSusp_cons h], rfl⟩
    · next low lowAddr _ =>
      exact ⟨a, { a with susp := some (.outByte lowAddr) }, rest, h,
        by rw [State.setSusp_cons (a := a) (rest := rest) (by simpa using h)], rfl⟩
    · exact ⟨a, a, rest, h, h, rfl⟩

@[simp] theorem returnFromOutput_ram (s : State) : (returnFromOutput s).ram = s.ram := by
  unfold returnFromOutput
  split
  · rfl
  · split <;> simp

/-- A call that has a next state leaves `ACT` alone, or returns from the handler, or starts an evaluation. -/
theorem applyCall_act {c : PortCall} {s t : State} (h : applyCall c s = .next t) :
    t.act = s.act ∨ (c = .done ∧ t = returnFromOutput s) ∨ (∃ v, c = .evaluate v ∧ t = s.evaluate v) := by
  cases c <;> simp only [applyCall, Host.Outcome.next.injEq, reduceCtorEq] at h <;> subst h <;>
    simp [State.pushW_eq]

/-- A call keeps RAM canonical. -/
theorem applyCall_wf {c : PortCall} {s t : State} (h : applyCall c s = .next t) (hw : s.ram.wf = true) :
    t.ram.wf = true := by
  cases c <;> simp only [applyCall, Host.Outcome.next.injEq, reduceCtorEq] at h <;> subst h <;>
    simp [hw, loadImage_wf, zeroRam_wf, bankWrite_wf, bulkLoad_wf, State.pushW_eq]

/-- A call marks a fault only by starting an evaluation at the limit. -/
theorem applyCall_fault {c : PortCall} {s t : State} (h : applyCall c s = .next t) :
    t.fault = s.fault ∨ (∃ v, c = .evaluate v ∧ Config.maxNest ≤ s.act.length) := by
  cases c <;> simp only [applyCall, Host.Outcome.next.injEq, reduceCtorEq] at h <;> subst h
  case evaluate v =>
    rcases s.evaluate_cases v with ⟨-, e⟩ | ⟨hl, -⟩
    · rw [e]; exact .inl rfl
    · exact .inr ⟨v, rfl, hl⟩
  case done =>
    left
    unfold returnFromOutput
    split
    · rfl
    · split <;> simp
  all_goals simp [State.pushW_eq]

/-- Only the call to destroy the machine is refused. -/
theorem applyCall_refused_iff {c : PortCall} {s : State} {r : Refusal} :
    applyCall c s = .refused r ↔ r = .destroyed ∧ c = .destroy := by
  cases c <;> simp [applyCall, eq_comm]

theorem outsideStep_refused_iff {s : State} {a : Option Byte} {r : Refusal} :
    outsideStep s a = .refused r ↔ r = .destroyed ∧ (drawCall s a).1 = .destroy := applyCall_refused_iff

theorem applyCall_no_fault {c : PortCall} {s : State} {f : Fault} : applyCall c s ≠ .fault f := by
  cases c <;> simp [applyCall]

/-! ### The step -/

theorem step_faulted {s : State} {f : Fault} (h : s.fault = some f) : step s = .fault f := by simp [step, h]

theorem step_idle {s : State} (h : s.Idle) : step s = outsideStep s none := by simp [step, h.1, h.2]

theorem step_suspended {s : State} {a : Activation} {rest : List Activation} {r : Suspended} (hf : s.fault = none)
    (ha : s.act = a :: rest) (hr : a.susp = some r) : step s = interceptStep r s := by simp [step, hf, ha, hr]

theorem step_runs {s : State} {pc : Short} {rest : List Activation} (h : s.RunsAt pc rest) :
    step s = exec (fetch s.ram pc) { s with act := { pc := pc + 1 } :: rest } := by
  simp [step, h.1, h.2, runInstruction, State.setPc_cons h.2]

/-- Where the outside may call and its next call is queued, the step is that call. -/
theorem step_call {s : State} {c : PortCall} {cs : List PortCall} (h : s.Idle ∨ s.HandlerTurn)
    (hc : s.calls = c :: cs) : step s = applyCall c { s with calls := cs } := by
  rcases h with h | ⟨hf, a, rest, ha, ho⟩
  · rw [step_idle h, outsideStep_cons hc]
  · obtain ⟨pc, r⟩ := a
    cases r with
    | none => simp [Activation.inOutput] at ho
    | some r =>
      rw [step_suspended hf ha rfl]
      cases r <;> simp_all [Activation.inOutput, interceptStep, outsideStep_cons hc]

/-- Every step of a machine that has not faulted is one of three. -/
theorem step_cases {s : State} (hf : s.fault = none) :
    (s.act = [] ∧ step s = outsideStep s none) ∨
    (∃ a rest r, s.act = a :: rest ∧ a.susp = some r ∧ step s = interceptStep r s) ∨
    (∃ pc rest, s.RunsAt pc rest ∧
      step s = exec (fetch s.ram pc) { s with act := { pc := pc + 1 } :: rest }) := by
  cases ha : s.act with
  | nil => exact .inl ⟨rfl, step_idle ⟨hf, ha⟩⟩
  | cons a rest =>
    obtain ⟨pc, r⟩ := a
    cases r with
    | some r => exact .inr (.inl ⟨_, rest, r, rfl, rfl, step_suspended hf ha rfl⟩)
    | none => exact .inr (.inr ⟨pc, rest, ⟨hf, ha⟩, step_runs ⟨hf, ha⟩⟩)

/-- An intercept step is a call of the outside (output) or an answer (input). -/
theorem interceptStep_cases (r : Suspended) (s : State) :
    (∃ a, interceptStep r s = outsideStep s (some a)) ∨ interceptStep r s = .next (answerInput r s) := by
  cases r
  case outByte a => exact .inl ⟨a, rfl⟩
  case outHigh a _ _ => exact .inl ⟨a, rfl⟩
  all_goals exact .inr rfl

/-- An answered input leaves RAM, the device file, the fault mark, the calls and all but the top record alone. -/
theorem answerInput_frame (r : Suspended) (s : State) :
    (answerInput r s).ram = s.ram ∧ (answerInput r s).dev = s.dev ∧ (answerInput r s).fault = s.fault ∧
    (answerInput r s).calls = s.calls ∧ (answerInput r s).act.tail = s.act.tail ∧
    (answerInput r s).act.length = s.act.length := by
  cases r <;> simp [answerInput, State.pushByte_eq, State.pushW_eq]

end Sys2Proof.Machine
end

