-- ==== Sys2Proof/Tests/Slice0.lean ====
section
/-! SUPPORT. Small tests: words decoded as the spec's tables give them, one step on small states with the results of
95_test_vectors.md, ill-formed strings refused, and witnesses that the hypotheses of the statements can be met. -/

namespace Sys2Proof.Tests

open Sys2Proof.Machine

/-! ### Helpers -/

/-- A mode by its suffix letters. -/
def b0 : Mode := { keep := false, ret := false, short := false }
def s2 : Mode := { keep := false, ret := false, short := true }
def rr : Mode := { keep := false, ret := true, short := false }
def r2 : Mode := { keep := false, ret := true, short := true }
def kk : Mode := { keep := true, ret := false, short := false }
def k2 : Mode := { keep := true, ret := false, short := true }
def k2r : Mode := { keep := true, ret := true, short := true }

/-- The stack `[…]`, bottom to top. -/
def stackOf (bs : List Byte) : Stack := bs.foldl Stack.push1 Stack.zeroed

/-- The bytes of a stack, bottom to top. -/
def contents (S : Stack) : List Byte := (List.range S.ptr.toNat).map fun i => S.cell (BitVec.ofNat 8 i)

/-- Part 2 of the test vectors: the opcode stands at 0x0100, so the advanced pc is 0x0101. -/
def mk (w r : List Byte) (m : Memory := []) : State :=
  { State.reset with wst := stackOf w, rst := stackOf r, ram := m, act := [{ pc := 0x0101 }] }

/-- A state about to fetch at 0x0100, with its work stack, return stack, RAM and queued outside. -/
def at0100 (w r : List Byte) (m : Memory) (ins : List Byte := []) (cs : List PortCall := []) : State :=
  { mk w r m with act := [{ pc := 0x0100 }], inputs := ins, calls := cs }

/-- The result is a next state that the check accepts. -/
def gives (r : Result) (p : State → Bool) : Bool :=
  match r with
  | .next t => p t
  | .fault _ | .refused _ => false

/-- The work stack and the pc of the top activation. -/
def wstPc (w : List Byte) (pc : Short) (t : State) : Bool :=
  contents t.wst == w && t.act == [{ pc := pc }]

def wst (w : List Byte) (t : State) : Bool := wstPc w 0x0101 t

/-! ### Decoding: one word of every constructor, bit by bit (30_encoding.md R83, R85, R95) -/

def reads (bs : List Byte) (i : Instr) : Bool :=
  match decode bs with
  | .ok (j, rest) => j == i && rest == []
  | .error _ => false

theorem test_decode_immediate :
    reads [0b00000000] .brk ∧ reads [0b00100000, 0x12, 0x34] (.jci 0x1234) ∧
    reads [0b01000000, 0xFF, 0xFD] (.jmi 0xFFFD) ∧ reads [0b01100000, 0x00, 0x10] (.jsi 0x0010) ∧
    reads [0b10000000, 0x2A] (.lit 0x2A) ∧ reads [0b10100000, 0x12, 0x34] (.lit2 0x1234) ∧
    reads [0b11000000, 0x7F] (.litr 0x7F) ∧ reads [0b11100000, 0x01, 0x00] (.lit2r 0x0100) := by decide

theorem test_decode_stack :
    reads [0b00000001] (.inc b0) ∧ reads [0b00100010] (.pop s2) ∧ reads [0b01000011] (.nip rr) ∧
    reads [0b10000100] (.swp kk) ∧ reads [0b00000101] (.rot b0) ∧ reads [0b10100110] (.dup k2) ∧
    reads [0b01000111] (.ovr rr) := by decide

theorem test_decode_compare :
    reads [0b00101000] (.equ s2) ∧ reads [0b10001001] (.neq kk) ∧ reads [0b00001010] (.gth b0) ∧
    reads [0b11101011] (.lth k2r) := by decide

theorem test_decode_control :
    reads [0b01101100] (.jmp r2) ∧ reads [0b00001101] (.jcn b0) ∧ reads [0b00101110] (.jsr s2) ∧
    reads [0b10001111] (.sth kk) := by decide

theorem test_decode_load_store :
    reads [0b00010000] (.ldz b0) ∧ reads [0b00110001] (.stz s2) ∧ reads [0b01010010] (.ldr rr) ∧
    reads [0b00110011] (.str s2) ∧ reads [0b10010100] (.lda kk) ∧ reads [0b00110101] (.sta s2) ∧
    reads [0b00010110] (.dei b0) ∧ reads [0b10110111] (.deo k2) := by decide

theorem test_decode_alu :
    reads [0b00011000] (.add b0) ∧ reads [0b00111001] (.sub s2) ∧ reads [0b01011010] (.mul rr) ∧
    reads [0b10011011] (.div kk) ∧ reads [0b00011100] (.and b0) ∧ reads [0b00111101] (.ora s2) ∧
    reads [0b01111110] (.eor r2) ∧ reads [0b11111111] (.sft k2r) := by decide

/-! ### What is not one instruction is refused (WellFormed, Decode) -/

theorem test_wellformed_refuses_short_and_long_strings :
    oneInstruction [] = false ∧ oneInstruction [0x80] = false ∧ oneInstruction [0xA0, 0x12] = false ∧
    oneInstruction [0x00, 0x00] = false ∧ oneInstruction [0x20, 0x00, 0x05] = true := by decide

theorem test_decode_rejects_by_name :
    (match decode [] with | .error .noBytes => true | _ => false) = true ∧
    (match decode [0x60, 0x00] with | .error .truncated => true | _ => false) = true := by decide

theorem test_table_word : decodeTableWord 8 0x18 = some (.add b0) ∧ decodeTableWord 24 0x3412A0 = some (.lit2 0x1234) := by
  decide

/-! ### Immediate group (95_test_vectors.md V1) -/

theorem test_brk : gives (exec .brk (mk [1] [])) (fun t => t.act == [] && contents t.wst == [1]) = true := by decide
theorem test_jci_taken : gives (exec (.jci 0x0005) (mk [0x01] [])) (wstPc [] 0x0108) = true := by decide
theorem test_jci_not_taken : gives (exec (.jci 0x0005) (mk [0x00] [])) (wstPc [] 0x0103) = true := by decide
theorem test_jmi : gives (exec (.jmi 0xFFFD) (mk [] [])) (wstPc [] 0x0100) = true := by decide
theorem test_jsi : gives (exec (.jsi 0xFEFC) (mk [] []))
    (fun t => contents t.rst == [0x01, 0x03] && wstPc [] 0xFFFF t) = true := by decide
theorem test_lit : gives (exec (.lit 0x2A) (mk [] [])) (wstPc [0x2A] 0x0102) = true := by decide
theorem test_lit2 : gives (exec (.lit2 0x1234) (mk [] [])) (wstPc [0x12, 0x34] 0x0103) = true := by decide
theorem test_litr : gives (exec (.litr 0x7F) (mk [] []))
    (fun t => contents t.rst == [0x7F] && wstPc [] 0x0102 t) = true := by decide
theorem test_lit2r : gives (exec (.lit2r 0x0100) (mk [] []))
    (fun t => contents t.rst == [0x01, 0x00] && wstPc [] 0x0103 t) = true := by decide

/-- V1.13: the immediate of a LIT at 0xFFFF is at 0x0000. -/
theorem test_step_lit_wraps :
    gives (step { at0100 [] [] [(0x0000, 0x9C), (0xFFFF, 0x80)] with act := [{ pc := 0xFFFF }] })
      (wstPc [0x9C] 0x0001) = true := by decide +kernel

/-! ### Stack operations (V2) -/

theorem test_inc_wraps : gives (exec (.inc b0) (mk [0xFF] [])) (wst [0x00]) = true := by decide
theorem test_inc_carries : gives (exec (.inc s2) (mk [0x00, 0xFF] [])) (wst [0x01, 0x00]) = true := by decide
theorem test_pop_keep : gives (exec (.pop kk) (mk [0x01] [])) (wst [0x01]) = true := by decide
theorem test_pop_underflow : gives (exec (.pop b0) (mk [] [])) (fun t => t.wst.ptr == 0xFF) = true := by decide
theorem test_nip_short : gives (exec (.nip s2) (mk [0x12, 0x34, 0x56, 0x78] [])) (wst [0x56, 0x78]) = true := by decide
theorem test_swp_keep : gives (exec (.swp kk) (mk [1, 2] [])) (wst [1, 2, 2, 1]) = true := by decide
theorem test_rot_short : gives (exec (.rot s2) (mk [1, 2, 3, 4, 5, 6] [])) (wst [3, 4, 5, 6, 1, 2]) = true := by decide
theorem test_dup_keep_short :
    gives (exec (.dup k2) (mk [0x12, 0x34] [])) (wst [0x12, 0x34, 0x12, 0x34, 0x12, 0x34]) = true := by decide
theorem test_ovr_return :
    gives (exec (.ovr rr) (mk [] [1, 2])) (fun t => contents t.rst == [1, 2, 1] && wst [] t) = true := by decide

/-! ### Comparisons (V3) -/

theorem test_equ_short : gives (exec (.equ s2) (mk [0x12, 0x34, 0x12, 0x35] [])) (wst [0x00]) = true := by decide
theorem test_neq_keep : gives (exec (.neq kk) (mk [5, 5] [])) (wst [5, 5, 0x00]) = true := by decide
theorem test_gth_unsigned : gives (exec (.gth b0) (mk [0x80, 0x7F] [])) (wst [0x01]) = true := by decide
theorem test_lth_short : gives (exec (.lth s2) (mk [0x00, 0x00, 0xFF, 0xFF] [])) (wst [0x01]) = true := by decide

/-! ### Control (V4) -/

theorem test_jmp_backward : gives (exec (.jmp b0) (mk [0xFE] [])) (wstPc [] 0x00FF) = true := by decide
theorem test_jmp_absolute : gives (exec (.jmp s2) (mk [0x12, 0x34] [])) (wstPc [] 0x1234) = true := by decide
theorem test_jcn_not_taken : gives (exec (.jcn b0) (mk [0x00, 0x04] [])) (wstPc [] 0x0101) = true := by decide
theorem test_jcn_short : gives (exec (.jcn s2) (mk [0x80, 0x20, 0x00] [])) (wstPc [] 0x2000) = true := by decide
theorem test_jsr : gives (exec (.jsr b0) (mk [0x10] []))
    (fun t => contents t.rst == [0x01, 0x01] && wstPc [] 0x0111 t) = true := by decide
theorem test_jsr_return : gives (exec (.jsr rr) (mk [] [0xF0]))
    (fun t => contents t.rst == [] && wstPc [0x01, 0x01] 0x00F1 t) = true := by decide
theorem test_sth_short : gives (exec (.sth s2) (mk [0x12, 0x34] []))
    (fun t => contents t.rst == [0x12, 0x34] && wst [] t) = true := by decide
theorem test_sth_keep : gives (exec (.sth kk) (mk [0x2A] []))
    (fun t => contents t.rst == [0x2A] && wst [0x2A] t) = true := by decide

/-! ### Loads, stores, device (V5) -/

theorem test_ldz_wraps :
    gives (exec (.ldz s2) (mk [0xFF] [] [(0x0000, 0xCD), (0x00FF, 0xAB)])) (wst [0xAB, 0xCD]) = true := by decide
theorem test_stz_wraps : gives (exec (.stz s2) (mk [0x12, 0x34, 0xFF] []))
    (fun t => t.ram == [(0x0000, 0x34), (0x00FF, 0x12)] && wst [] t) = true := by decide
theorem test_ldr_reads_itself : gives (exec (.ldr b0) (mk [0xFF] [] [(0x0100, 0x12)])) (wst [0x12]) = true := by decide
theorem test_str_short : gives (exec (.str s2) (mk [0xBE, 0xEF, 0xFE] [] [(0x0100, 0x33)]))
    (fun t => t.ram == [(0x00FF, 0xBE), (0x0100, 0xEF)] && wst [] t) = true := by decide
theorem test_lda_wraps :
    gives (exec (.lda s2) (mk [0xFF, 0xFF] [] [(0x0000, 0x22), (0xFFFF, 0x11)])) (wst [0x11, 0x22]) = true := by decide
theorem test_sta_wraps : gives (exec (.sta s2) (mk [0xAB, 0xCD, 0xFF, 0xFF] []))
    (fun t => t.ram == [(0x0000, 0xCD), (0xFFFF, 0xAB)] && wst [] t) = true := by decide
theorem test_dei_asks : gives (exec (.dei s2) (mk [0xFF] []))
    (fun t => t.act == [{ pc := 0x0101, susp := some (.inHigh 0xFF .work) }] && contents t.wst == []) = true := by decide
/-- V5.11: the answer is what is pushed. -/
theorem test_dei_answer :
    gives (step { mk [] [] with act := [{ pc := 0x0101, susp := some (.inByte 0x04 .work) }], inputs := [0x99] })
      (fun t => wst [0x99] t && t.inputs == [] && t.devRead1 0x04 == 0) = true := by decide
/-- V5.12: the high byte is stored before the first call. -/
theorem test_deo_short : gives (exec (.deo s2) (mk [0xAB, 0xCD, 0x1F] []))
    (fun t => t.devRead1 0x1F == 0xAB && t.devRead1 0x20 == 0 &&
      t.act == [{ pc := 0x0101, susp := some (.outHigh 0x1F 0xCD 0x20) }]) = true := by decide
theorem test_deo_low_byte :
    gives (step { mk [] [] with act := [{ pc := 0x0101, susp := some (.outHigh 0x1F 0xCD 0x20) }], calls := [.done] })
      (fun t => t.devRead1 0x20 == 0xCD && t.act == [{ pc := 0x0101, susp := some (.outByte 0x20) }]) = true := by decide

/-! ### Arithmetic and logic (V6) -/

theorem test_add_wraps : gives (exec (.add b0) (mk [0xFF, 0x01] [])) (wst [0x00]) = true := by decide
theorem test_add_short : gives (exec (.add s2) (mk [0x00, 0xFF, 0x00, 0x01] [])) (wst [0x01, 0x00]) = true := by decide
theorem test_sub_wraps : gives (exec (.sub b0) (mk [0x03, 0x05] [])) (wst [0xFE]) = true := by decide
theorem test_mul_truncates : gives (exec (.mul b0) (mk [0xFF, 0xFF] [])) (wst [0x01]) = true := by decide
theorem test_div_unsigned : gives (exec (.div kk) (mk [0xFF, 0x02] [])) (wst [0xFF, 0x02, 0x7F]) = true := by decide
theorem test_div_by_zero : gives (exec (.div b0) (mk [0xFF, 0x00] [])) (wst [0x00]) = true := by decide
theorem test_and_short : gives (exec (.and s2) (mk [0xF0, 0x0F, 0x3C, 0x3C] [])) (wst [0x30, 0x0C]) = true := by decide
theorem test_ora : gives (exec (.ora b0) (mk [0xF0, 0x0F] [])) (wst [0xFF]) = true := by decide
theorem test_eor : gives (exec (.eor b0) (mk [0xF0, 0x3C] [])) (wst [0xCC]) = true := by decide
theorem test_sft_clears : gives (exec (.sft b0) (mk [0x34, 0x80] [])) (wst [0x00]) = true := by decide
theorem test_sft_short : gives (exec (.sft s2) (mk [0x12, 0x34, 0x40] [])) (wst [0x23, 0x40]) = true := by decide

/-! ### Host port (E10, V7) -/

theorem test_bulk_load_stops_at_the_bank_end :
    bulkLoad [] [0x11, 0x22, 0x33, 0x44] 2 0xFFFE = [(0x2FFFE, 0x11), (0x2FFFF, 0x22)] := by decide
theorem test_soft_reset :
    ((mk [1] [] [(0x0010, 0x55), (0x0200, 0x66)]).softReset [0xAA]).ram = [(0x0010, 0x55), (0x0100, 0xAA)] := by decide
theorem test_hard_reset :
    ((mk [1] [] [(0x0010, 0x55), (0x0200, 0x66)]).hardReset [0xAA]).ram = [(0x0100, 0xAA)] := by decide
/-- A word of the opcode table is what the first step after reset runs. -/
theorem test_fetch_word :
    gives (step (State.reset.withFetchWord 8 0x06)) (fun t => t.wst.ptr == 0x01 && t.act == [{ pc := 0x0101 }]) = true := by
  decide

/-! ### Witnesses: the hypotheses of the statements can be met together -/

theorem witness_rom_is_canonical : Memory.wf [(0x0100, 0x80), (0x0101, 0x2A)] = true := by decide

/-- For StepRunsTheDecodedInstruction, OutsideHasNoMoveDuringAnInstruction and
LiteralsPushTheirImmediate (LIT). -/
theorem witness_runs_at :
    (at0100 [] [] [(0x0100, 0x80), (0x0101, 0x2A)]).RunsAt 0x0100 [] ∧
    memRead1 [(0x0100, 0x80), (0x0101, 0x2A)] 0x0100 = 0x80 ∧ reads [0x80, 0x2A] (.lit 0x2A) = true ∧
    gives (step (at0100 [] [] [(0x0100, 0x80), (0x0101, 0x2A)])) (wstPc [0x2A] 0x0102) = true :=
  ⟨⟨rfl, rfl⟩, by decide, by decide, by decide +kernel⟩

/-- For the statements about the immediate group: every opcode byte of the immediate group can stand at the pc. -/
theorem witness_immediates :
    ∀ op ∈ [(0x20 : Byte), 0x40, 0x60, 0x80, 0xA0, 0xC0, 0xE0],
      (at0100 [] [] [(0x0100, op), (0x0101, 0x12), (0x0102, 0x34)]).RunsAt 0x0100 [] ∧
      memRead1 [(0x0100, op), (0x0101, 0x12), (0x0102, 0x34)] 0x0100 = op :=
  fun op _ => ⟨⟨rfl, rfl⟩, by simp [memRead1, bankRead1, ramKey, Memory.read, Config.bankBytes]⟩

/-- For EncodeOfDecodeIsTheBytes and LengthIsToldByTheOpcodeByte: a string that decodes, and one that is cut. -/
theorem witness_decodes : decode [0xA0, 0x12, 0x34, 0x00] = .ok (.lit2 0x1234, [0x00]) ∧
    decode [0xA0, 0x12] = .error .truncated := ⟨rfl, rfl⟩

/-- A nested evaluation can be started wherever fewer than `MAX_NEST` records stand; with none, always. -/
theorem witness_room : ([] : List Activation).length < Config.maxNest := Nat.succ_pos _

/-- A state whose outermost output intercept runs with `n` records, and its queued calls. -/
def inHandler (n : Nat) (cs : List PortCall) : State :=
  { State.reset with act := List.replicate n { pc := 0x0106, susp := some (.outByte 0x21) }, calls := cs }

theorem inHandler_turn (n : Nat) (cs : List PortCall) : (inHandler (n + 1) cs).HandlerTurn :=
  ⟨rfl, _, _, List.replicate_succ, rfl⟩

/-- For EvaluatePushesOneRecordOrFaultsAtTheLimit: the idle machine below the limit, and a handler at the limit. -/
theorem witness_evaluate :
    ({ State.reset with calls := [.evaluate 0x0100] } : State).Idle ∧
    (inHandler Config.maxNest [.evaluate 0x0120]).HandlerTurn ∧
    Config.maxNest ≤ (inHandler Config.maxNest [.evaluate 0x0120]).act.length :=
  ⟨⟨rfl, rfl⟩, inHandler_turn _ _, by simp [inHandler]⟩

/-- For NestedEvaluationReturnsToItsHandler, wherever the limit leaves room for one nested evaluation. -/
theorem witness_nested (h : 1 < Config.maxNest) :
    (inHandler 1 [.evaluate 0x0120]).HandlerTurn ∧ (inHandler 1 [.evaluate 0x0120]).calls = [.evaluate 0x0120] ∧
    memRead1 (inHandler 1 [.evaluate 0x0120]).ram 0x0120 = 0x00 ∧
    (inHandler 1 [.evaluate 0x0120]).act.length < Config.maxNest :=
  ⟨inHandler_turn 0 _, rfl, rfl, h⟩

/-- For HaltEndsOnlyTheTopActivation, OnlyTheTopActivationSteps, IdlenessIsEnteredByBrkAndLeftByEvaluate and every
statement about an instruction in a running evaluation: a BRK at 0x0100 that has a next state, idle. -/
theorem witness_running :
    (at0100 [] [] []).act = [{ pc := 0x0100 }] ∧ gives (step (at0100 [] [] [])) (fun t => t.act == []) = true :=
  ⟨rfl, by decide⟩

/-- For IdlenessIsEnteredByBrkAndLeftByEvaluate, the other way. -/
theorem witness_leaves_idleness :
    step { State.reset with calls := [.evaluate 0x0100] } = .next { State.reset with act := [{ pc := 0x0100 }] } := by
  rfl

/-- For NoProgramCounterOutsideAnEvaluation, both kinds. -/
theorem witness_outside : State.reset.act = [] ∧ needsActivation (.jmp b0) = true ∧ needsActivation (.add b0) = false :=
  ⟨rfl, rfl, rfl⟩

/-- For StepStopsOnlyByTheMarkOrByDestroy: the fault, and the destruction while idle and from a handler. -/
theorem witness_stops :
    step { State.reset with fault := some .nestOverflow } = .fault .nestOverflow ∧
    ({ State.reset with calls := [.destroy] } : State).NextCall .destroy ∧
    step { State.reset with calls := [.destroy] } = .refused .destroyed ∧
    (inHandler 1 [.destroy]).NextCall .destroy ∧ step (inHandler 1 [.destroy]) = .refused .destroyed :=
  ⟨rfl, ⟨rfl, .inl ⟨rfl, rfl⟩⟩, rfl, ⟨rfl, .inr ⟨_, _, _, rfl, .inl rfl, rfl⟩⟩, rfl⟩

/-- The two stacks are zeroed by their own call of the host port (60_exceptions.md R249). -/
theorem test_zero_stacks :
    step { State.reset with wst := stackOf [1], rst := stackOf [2], calls := [.zeroStacks] } = .next State.reset := rfl

/-- For EveryStepKeepsTheInvariant. -/
theorem witness_invariant : (at0100 [] [] [(0x0100, 0x06)]).Inv ∧
    gives (step (at0100 [] [] [(0x0100, 0x06)])) (fun _ => true) = true :=
  ⟨⟨by decide, Nat.succ_le_succ (Nat.zero_le _), by simp [at0100, mk]⟩, by decide⟩

/-- For the second half of InstructionsReachBankZeroOnly: two canonical RAMs that differ in bank 1 only. -/
theorem witness_other_bank (off : Short) :
    Memory.wf [(0x0100, 0x06)] = true ∧ Memory.wf [(0x0100, 0x06), (0x10000, 0x77)] = true ∧
    bankRead1 [(0x0100, 0x06), (0x10000, 0x77)] 0 off = bankRead1 [(0x0100, 0x06)] 0 off := by
  have : off.toNat ≠ 0x10000 := by have := off.isLt; omega
  exact ⟨by decide, by decide, by simp [bankRead1, ramKey, Memory.read, this]⟩

/-- For InstructionsReachBankZeroOnly and OnlyStoresChangeRamAndOnlyDeoTheDeviceFile. -/
theorem witness_store : gives (exec (.sta b0) (mk [0x56, 0x12, 0x34] [] [(0x10000, 0x77)]))
    (fun t => t.ram == [(0x1234, 0x56), (0x10000, 0x77)]) = true ∧ (1 : Bank) ≠ 0 ∧
    isRamStore (.dup b0) = false ∧ isDeviceOutput (.dup b0) = false := by decide

/-- For ZeroPageLoadAndStore, RelativeStore, AbsoluteStore, WriteThenReadRoundTrips, BulkLoadStopsAtTheBankEnd and
BootImageLiesLinearlyFromTheResetVector: a canonical RAM with a cell at each end of the address space. -/
theorem witness_canonical : Memory.wf [(0x00000, 0x01), (0xFFFFF, 0x02)] = true := by decide

/-- For CanonicalRamsThatReadTheSameAreEqual: two forms of one RAM are not both canonical. -/
theorem witness_not_canonical : Memory.wf [(5, 0x01), (3, 0x02)] = false ∧ Memory.wf [(3, 0x00)] = false ∧
    Memory.wf [(0x100000, 0x01)] = false ∧ Memory.wf [] = true := by decide

/-- For StoredByteIsTheNextInstruction (program P5). -/
theorem witness_self_modifying :
    (at0100 [0x80, 0x00] [] [(0x0100, 0x13)]).RunsAt 0x0100 [] ∧ Memory.wf [(0x0100, 0x13)] = true ∧
    memRead1 [(0x0100, 0x13)] 0x0100 = 0x13 ∧ (stackOf [0x80, 0x00]).peek 0 = 0x00 :=
  ⟨⟨rfl, rfl⟩, by decide, by decide, by decide⟩

/-- For DeviceInputPushesTheAnswers, in both widths. -/
theorem witness_input :
    (at0100 [0x04] [] [(0x0100, 0x16)] [0x99, 0x55]).RunsAt 0x0100 [] ∧
    memRead1 [(0x0100, 0x16)] 0x0100 = opcodeOf b0 0x16 ∧ memRead1 [(0x0100, 0x36)] 0x0100 = opcodeOf s2 0x16 ∧
    [(0x99 : Byte), 0x55] = [0x99] ++ [0x55] ∧ [(0x99 : Byte)].length = widthOf b0.short ∧
    [(0x99 : Byte), 0x55].length = widthOf s2.short :=
  ⟨⟨rfl, rfl⟩, by decide, by decide, rfl, rfl, rfl⟩

/-- For UnqueuedInputIsTheFreeAnswer: a state of each of its three forms. -/
theorem witness_unqueued (r : Suspended) :
    ({ State.reset with act := [{ pc := 0x0101, susp := some r }] } : State).fault = none ∧
    ({ State.reset with act := [{ pc := 0x0101, susp := some r }] } : State).inputs = [] ∧
    ({ State.reset with act := [{ pc := 0x0101, susp := some r }] } : State).act =
      { pc := 0x0101, susp := some r } :: [] := ⟨rfl, rfl, rfl⟩

/-- For DeviceOutputWritesEachByteOnce, in both widths. -/
theorem witness_output :
    (at0100 [0xAB, 0xCD, 0x1F] [] [(0x0100, 0x37)] [] [.done, .done]).RunsAt 0x0100 [] ∧
    memRead1 [(0x0100, 0x37)] 0x0100 = opcodeOf s2 0x17 ∧ memRead1 [(0x0100, 0x17)] 0x0100 = opcodeOf b0 0x17 ∧
    (at0100 [0xAB, 0xCD, 0x1F] [] [(0x0100, 0x37)] [] [.done, .done]).calls =
      List.replicate (widthOf s2.short) .done ++ [] :=
  ⟨⟨rfl, rfl⟩, by decide, by decide, rfl⟩

/-- For LowByteOfShortOutputOverwritesTheHandler. -/
theorem witness_split_output :
    let s : State := { State.reset with act := [{ pc := 0x0106, susp := some (.outHigh 0x20 0x34 0x21) }],
                                        calls := [.devWrite false 0x21 0x0055, .done] }
    s.fault = none ∧ s.act = [{ pc := 0x0106, susp := some (.outHigh 0x20 0x34 0x21) }] ∧
    s.calls = .devWrite false 0x21 0x0055 :: .done :: [] := ⟨rfl, rfl, rfl⟩

/-- For the statements about a queued call of the host port, while idle and inside a handler, for any call. -/
theorem witness_port (c : PortCall) :
    ({ State.reset with calls := [c] } : State).Idle ∧ ({ State.reset with calls := [c] } : State).ram.wf = true ∧
    (inHandler 1 [c]).HandlerTurn ∧ (inHandler 1 [c]).ram.wf = true ∧ (inHandler 1 [c]).calls = [c] :=
  ⟨⟨rfl, rfl⟩, rfl, inHandler_turn 0 _, rfl, rfl⟩

/-- For PushesPastTheEndWrapAndOverwrite: a full stack and an empty one. -/
theorem witness_ends : (Stack.zeroed.setPtr 0xFF).ptr = 0xFF ∧ Stack.zeroed.ptr = 0x00 := ⟨rfl, rfl⟩

/-- For PushesPastTheEndWrapAndOverwrite. -/
theorem witness_pushes : (List.replicate 256 (0x5A : Byte)).length = 256 := List.length_replicate

end Sys2Proof.Tests
end

section
/-! PROOFS. The stacks by themselves (10_state.md R24, R25): zero at construction and after a reset, and what one push
and one pop do. -/

namespace Sys2Proof.Machine

/-! ### Zeroed stacks (10_state.md R24) -/

@[simp] theorem State.reset_stack (sel : StackSel) : State.reset.stack sel = Stack.zeroed := by cases sel <;> rfl

/-- The step that takes a queued reset call, hard or soft, leaves both stacks zeroed. -/
theorem step_reset_stack {s : State} {img : List Byte} {c : PortCall} {cs : List PortCall}
    (hturn : s.Idle ∨ s.HandlerTurn) (hcalls : s.calls = c :: cs) (hc : c ∈ [.hardReset img, .softReset img]) :
    ∃ t, step s = .next t ∧ ∀ sel, t.stack sel = Stack.zeroed := by
  have hc : c = .hardReset img ∨ c = .softReset img := by simpa using hc
  rcases hc with rfl | rfl
  · exact ⟨_, step_call hturn hcalls, fun _ => State.hardReset_stack ..⟩
  · exact ⟨_, step_call hturn hcalls, fun _ => State.softReset_stack ..⟩

/-- Settles O18: at construction by the definition of the reset state, after a reset by the step of its call. -/
theorem stacksAreZeroAtConstructionAndAfterResets : Obligations.StacksAreZeroAtConstructionAndAfterResets := by
  refine ⟨fun sel i => by simp, fun s img c cs hturn hcalls hc => ?_⟩
  obtain ⟨t, hstep, hzero⟩ := step_reset_stack hturn hcalls hc
  exact ⟨t, hstep, fun sel i => by simp [hzero sel]⟩

/-! ### One push and one pop (10_state.md R25) -/

theorem byte_add_one_eq_ofNat (p : Byte) : p + 1 = BitVec.ofNat 8 ((p.toNat + 1) % 256) := by bv_omega

theorem byte_sub_one_eq_ofNat (p : Byte) : p - 1 = BitVec.ofNat 8 ((p.toNat + 255) % 256) := by bv_omega

theorem Stack.pop1_fst (S : Stack) : S.pop1.1 = S.cell (S.ptr - 1) := rfl
theorem Stack.pop1_snd_ptr (S : Stack) : S.pop1.2.ptr = S.ptr - 1 := rfl
theorem Stack.pop1_snd_cell (S : Stack) (i : Byte) : S.pop1.2.cell i = S.cell i := rfl

/-- Settles O58, from the cells and the pointer after a push and after a pop. -/
theorem pushWritesThenMovesAndPopMovesThenReads : Obligations.PushWritesThenMovesAndPopMovesThenReads := by
  intro S b
  have hpop : S.pop1.1 = S.cell S.pop1.2.ptr := by rw [S.pop1_fst, S.pop1_snd_ptr]
  exact ⟨byte_add_one_eq_ofNat S.ptr, S.push1_cell b, byte_sub_one_eq_ofNat S.ptr, hpop, S.pop1_snd_cell⟩

end Sys2Proof.Machine
end

section
/-! PROOFS. RAM and the device file (20_memory.md): a short written is the short read (R62), the bulk load stops at the
bank end (R68), `zero` and `dev_zero` (R69, R70), and which instructions change RAM or the device file (R59, R66). -/

namespace Sys2Proof.Machine

/-! ### Shorts, high byte first (20_memory.md R53, R54, R60 to R62) -/

section
variable {m : Memory} (bank : Bank) (off v : Short)

theorem bankRead_short : bankRead m true bank off = shortOf (bankRead1 m bank off) (bankRead1 m bank (off + 1)) := rfl

theorem bankRead1_bankWrite_short_high (hw : m.wf = true) :
    bankRead1 (bankWrite m true bank off v) bank off = hiByte v :=
  (bankRead1_bankWrite1_ne (.inr (short_add_one_ne off).symm)).trans (bankRead1_bankWrite1_self hw)

theorem bankRead1_bankWrite_short_low (hw : m.wf = true) :
    bankRead1 (bankWrite m true bank off v) bank (off + 1) = loByte v :=
  bankRead1_bankWrite1_self (bankWrite1_wf hw)

theorem bankRead_bankWrite_short (hw : m.wf = true) : bankRead (bankWrite m true bank off v) true bank off = v := by
  rw [bankRead_short, bankRead1_bankWrite_short_high bank off v hw, bankRead1_bankWrite_short_low bank off v hw,
    shortOf_hiByte_loByte]

end

section
variable (s : State) (a : Byte) (v : Short)

theorem State.devRead_short : s.devRead true a = shortOf (s.devRead1 a) (s.devRead1 (a + 1)) := rfl

theorem State.devRead1_devWrite_short_high : (s.devWrite true a v).devRead1 a = hiByte v :=
  (State.devRead1_devWrite1_ne _ _ (byte_add_one_ne a).symm).trans (State.devRead1_devWrite1 ..)

theorem State.devRead1_devWrite_short_low : (s.devWrite true a v).devRead1 (a + 1) = loByte v :=
  State.devRead1_devWrite1 ..

theorem State.devRead_devWrite_short : (s.devWrite true a v).devRead true a = v := by
  rw [State.devRead_short, State.devRead1_devWrite_short_high, State.devRead1_devWrite_short_low,
    shortOf_hiByte_loByte]

end

/-- Settles O42: each byte by read after write, the short by putting its two bytes together again. -/
theorem writeThenReadRoundTrips : Obligations.WriteThenReadRoundTrips := by
  intro s bank off v a hw
  exact ⟨bankRead1_bankWrite_short_high bank off v hw, bankRead1_bankWrite_short_low bank off v hw,
    bankRead_short bank off, bankRead_bankWrite_short bank off v hw,
    s.devRead1_devWrite_short_high a v, s.devRead1_devWrite_short_low a v,
    s.devRead_short a, s.devRead_devWrite_short a v⟩

/-! ### The bulk load (20_memory.md R68) -/

/-- After a bulk load the bytes of the source lie from the offset up; an offset of the bank always lies before the bank's
end, so the cut of the source there does not show. -/
theorem bankRead1_bulkLoad {m : Memory} (src : List Byte) (bank : Bank) (off : Short) (hw : m.wf = true)
    (b : Bank) (o : Short) : bankRead1 (bulkLoad m src bank off) b o =
      if b = bank ∧ off.toNat ≤ o.toNat ∧ o.toNat - off.toNat < src.length
      then src[o.toNat - off.toNat]?.getD 0 else bankRead1 m b o := by
  have ho : o.toNat < Config.bankBytes := o.isLt
  have hoff : off.toNat < Config.bankBytes := off.isLt
  have hlen : (src.take (Config.bankBytes - off.toNat)).length = min (Config.bankBytes - off.toNat) src.length :=
    List.length_take
  rw [bulkLoad, bankRead1_copyBytes _ hw (by omega), List.getElem?_take_of_lt (by omega)]
  exact if_congr (and_congr_right fun _ => by omega) rfl rfl

/-- Settles O53: the closed form of the copy, and the step of the queued call. -/
theorem bulkLoadStopsAtTheBankEnd : Obligations.BulkLoadStopsAtTheBankEnd :=
  ⟨fun _ src bank off hw => bankRead1_bulkLoad src bank off hw, fun _ _ _ _ _ hturn hcalls => step_call hturn hcalls⟩

/-! ### Zeroing (20_memory.md R69, R70) -/

/-- Where only the cells whose keys satisfy `p` are kept, a key that satisfies it reads as before and any other as a byte
that nothing has written. -/
theorem Memory.read_filter (p : Nat → Bool) (m : Memory) (x : Nat) :
    Memory.read (m.filter fun c => p c.1) x = if p x then m.read x else Memory.unlisted := by
  induction m with
  | nil => simp [Memory.read]
  | cons c rest ih =>
    obtain ⟨k, v⟩ := c
    by_cases hx : x = k
    · subst hx
      cases hp : p x <;> simp [Memory.read, hp, ih]
    · cases hp : p k <;> simp [Memory.read, hp, hx, ih]

/-- The preserved region is the first 256 bytes of bank 0. -/
theorem ramKey_lt_lowBytes {bank : Bank} {off : Short} :
    ramKey bank off < Config.lowBytes ↔ bank = 0 ∧ off.toNat < 0x100 := by
  have h0 : bank = 0 ↔ bank.toNat = 0 := BitVec.toNat_inj.symm
  simp only [ramKey, Config.bankBytes, Config.lowBytes, h0]
  omega

theorem bankRead1_zeroRam (m : Memory) (preserve : Bool) (bank : Bank) (off : Short) :
    bankRead1 (zeroRam m preserve) bank off =
      if preserve = true ∧ bank = 0 ∧ off.toNat < 0x100 then bankRead1 m bank off else 0x00 := by
  cases preserve with
  | false => simp [zeroRam, bankRead1, Memory.read, Memory.unlisted]
  | true =>
    rw [bankRead1, zeroRam, if_pos rfl, Memory.read_filter (fun k => k < Config.lowBytes)]
    simp only [decide_eq_true_eq, ramKey_lt_lowBytes, true_and]
    rfl

/-- Settles O55: what RAM and the device file read after the zeroing, and the steps of the queued calls. -/
theorem zeroClearsAllButThePreservedBytes : Obligations.ZeroClearsAllButThePreservedBytes := by
  refine ⟨bankRead1_zeroRam, State.devZero_devRead1, fun s preserve cs hturn => ⟨step_call hturn, fun hcalls => ?_⟩⟩
  exact ⟨_, step_call hturn hcalls, s.devZero_devRead1⟩

/-! ### Which instructions change RAM or the device file (20_memory.md R59, R66) -/

/-- Where the result has a next state, RAM is as in `s` unless the instruction stores to it, and the device file is as in
`s` unless the instruction is DEO. -/
def MemoryFrame (i : Instr) (s : State) (r : Result) : Prop :=
  ∀ t, r = .next t → (isRamStore i = false → t.ram = s.ram) ∧ (isDeviceOutput i = false → t.dev = s.dev)

section
variable {i : Instr} {s t : State}

theorem memoryFrame_of_next {r : Result} (h : r = .next t) (hram : isRamStore i = false → t.ram = s.ram)
    (hdev : isDeviceOutput i = false → t.dev = s.dev) : MemoryFrame i s r := by
  subst h
  rintro _ ⟨⟩
  exact ⟨hram, hdev⟩

/-- Replacing a stack touches neither. -/
theorem memoryFrame_of_setStack {r : Result} {sel : StackSel} {S : Stack} (h : r = .next (s.setStack sel S)) :
    MemoryFrame i s r :=
  memoryFrame_of_next h (fun _ => s.setStack_ram sel S) (fun _ => s.setStack_dev sel S)

/-- Nor does replacing the activations with it. -/
theorem memoryFrame_of_setStack_act {r : Result} {sel : StackSel} {S : Stack} {acts : List Activation}
    (h : r = .next { s.setStack sel S with act := acts }) : MemoryFrame i s r :=
  memoryFrame_of_next h (fun _ => s.setStack_ram sel S) (fun _ => s.setStack_dev sel S)

/-- A meaning that needs the program counter has a next state in a running evaluation only. -/
theorem memoryFrame_running {k : Short → Result}
    (h : ∀ a rest, s.act = a :: rest → MemoryFrame i s (running s k)) : MemoryFrame i s (running s k) := by
  cases hact : s.act with
  | nil => simp [MemoryFrame, running_nil hact]
  | cons a rest => exact h a rest hact

end

section
variable {i : Instr} (m : Mode) (s : State)

theorem unaryOp_memoryFrame (f : Short → Short) : MemoryFrame i s (unaryOp m f s) :=
  memoryFrame_of_setStack (unaryOp_eq m s f)

theorem binaryOp_memoryFrame (f : Short → Short → Short) : MemoryFrame i s (binaryOp m f s) :=
  memoryFrame_of_setStack (binaryOp_eq m s f)

theorem compareOp_memoryFrame (rel : Short → Short → Bool) : MemoryFrame i s (compareOp m rel s) :=
  memoryFrame_of_setStack (compareOp_eq m s rel)

end

/-- Every instruction replaces stacks and activations only, but for the three RAM stores and DEO. -/
theorem exec_memoryFrame (i : Instr) (s : State) : MemoryFrame i s (exec i s) := by
  unfold exec
  cases i with
  -- shared operations
  | inc m => exact unaryOp_memoryFrame m s _
  | nip m | add m | sub m | mul m | div m | and m | ora m | eor m => exact binaryOp_memoryFrame m s _
  | equ m | neq m | gth m | lth m => exact compareOp_memoryFrame m s _
  -- one stack
  | pop m => exact memoryFrame_of_setStack (execPop_eq m s)
  | swp m => exact memoryFrame_of_setStack (execSwp_eq m s)
  | rot m => exact memoryFrame_of_setStack (execRot_eq m s)
  | dup m => exact memoryFrame_of_setStack (execDup_eq m s)
  | ovr m => exact memoryFrame_of_setStack (execOvr_eq m s)
  | sft m => exact memoryFrame_of_setStack (execSft_eq m s)
  | ldz m => exact memoryFrame_of_setStack (execLdz_eq m s)
  | lda m => exact memoryFrame_of_setStack (execLda_eq m s)
  | ldr m => exact memoryFrame_running fun _ _ h => memoryFrame_of_setStack (execLdr_eq m h)
  -- one stack and the top activation
  | jci d => exact memoryFrame_running fun _ _ h => memoryFrame_of_setStack_act (execJci_eq h d)
  | jsi d => exact memoryFrame_running fun _ _ h => memoryFrame_of_setStack_act (execJsi_eq h d)
  | lit b => exact memoryFrame_running fun _ _ h => memoryFrame_of_setStack_act (execLit_eq h b)
  | lit2 v => exact memoryFrame_running fun _ _ h => memoryFrame_of_setStack_act (execLit2_eq h v)
  | litr b => exact memoryFrame_running fun _ _ h => memoryFrame_of_setStack_act (execLitr_eq h b)
  | lit2r v => exact memoryFrame_running fun _ _ h => memoryFrame_of_setStack_act (execLit2r_eq h v)
  | jmp m => exact memoryFrame_running fun _ _ h => memoryFrame_of_setStack_act (execJmp_eq m h)
  | jcn m => exact memoryFrame_running fun _ _ h => memoryFrame_of_setStack_act (execJcn_eq m h)
  | dei m => exact memoryFrame_running fun _ _ h => memoryFrame_of_setStack_act (execDei_eq m h)
  -- the activations alone, or both stacks
  | brk => exact memoryFrame_running fun _ _ h => memoryFrame_of_next (execBrk_eq h) (fun _ => rfl) (fun _ => rfl)
  | jmi d => exact memoryFrame_running fun _ _ h => memoryFrame_of_next (execJmi_eq h d) (fun _ => rfl) (fun _ => rfl)
  | sth m => exact memoryFrame_of_next (execSth_eq m s) (by simp) (by simp)
  | jsr m => exact memoryFrame_running fun _ _ h => memoryFrame_of_next (execJsr_eq m h) (by simp) (by simp)
  -- stores and device output
  | stz m => exact memoryFrame_of_next (execStz_eq m s) (by simp [isRamStore]) (by simp)
  | sta m => exact memoryFrame_of_next (execSta_eq m s) (by simp [isRamStore]) (by simp)
  | str m =>
    exact memoryFrame_running fun _ _ h => memoryFrame_of_next (execStr_eq m h) (by simp [isRamStore]) (by simp)
  | deo m =>
    exact memoryFrame_running fun _ _ h => memoryFrame_of_next (execDeo_eq m h) (by simp) (by simp [isDeviceOutput])

/-- Settles O20: the frame of every instruction. -/
theorem onlyStoresChangeRamAndOnlyDeoTheDeviceFile : Obligations.OnlyStoresChangeRamAndOnlyDeoTheDeviceFile :=
  exec_memoryFrame

end Sys2Proof.Machine
end

section
/-! PROOFS. The encoding (30_encoding.md R80 to R90): what the decoder does on an opcode byte and the bytes after it, and
the two round trips. -/

namespace Sys2Proof

/-! ### The two groups of opcode bytes (30_encoding.md R82, R83) -/

/-- The immediate group is the bytes with base 0. -/
theorem mem_immediate_of_baseOf_eq_zero {op : Byte} (h : baseOf op = 0) :
    op ∈ [0x00, 0x20, 0x40, 0x60, 0x80, 0xA0, 0xC0, 0xE0] := by
  rw [← opByte_fields op, h]
  generalize modeOf op = m
  obtain ⟨k, r, s⟩ := m
  cases k <;> cases r <;> cases s <;> decide

/-- A byte of the immediate group has base 0, so the base dispatch reads the others. -/
theorem decodeOp_opByte (m : Mode) {n : BitVec 5} (hn : n ≠ 0) (b1 b2 : Byte) :
    decodeOp (opByte m n) b1 b2 = decodeBase n.toNat m := by
  have hne {b : Byte} (h : opByte m n = b) (hb : baseOf b = 0) : False := hn (by rw [← baseOf_opByte m n, h, hb])
  unfold decodeOp
  split
  case h_9 => rw [baseOf_opByte, modeOf_opByte]
  all_goals exact (hne ‹_› (by decide)).elim

/-- The base operations are encoded with the numbers they are decoded from (30_encoding.md R85). -/
theorem encode_decodeBase (m : Mode) {n : BitVec 5} (hn : n ≠ 0) : encode (decodeBase n.toNat m) = [opByte m n] := by
  obtain ⟨⟨k, hlt⟩⟩ := n
  have hpos : 0 < k := Nat.pos_of_ne_zero (by rintro rfl; exact hn rfl)
  interval_cases k <;> rfl

/-- The encoding is the opcode byte and those of the two bytes after it that the opcode byte calls for. -/
theorem encode_decodeOp (op b1 b2 : Byte) :
    encode (decodeOp op b1 b2) = op :: [b1, b2].take (operandBytes op) := by
  by_cases hbase : baseOf op = 0
  · have hop := mem_immediate_of_baseOf_eq_zero hbase
    simp only [List.mem_cons, List.not_mem_nil, or_false] at hop
    rcases hop with rfl | rfl | rfl | rfl | rfl | rfl | rfl | rfl <;> simp [decodeOp, operandBytes, encode]
  · rw [← opByte_fields op, decodeOp_opByte _ hbase, encode_decodeBase _ hbase, Laws.EncodedLength.base _ _ hbase,
      List.take_zero]

/-! ### What the decoder does on an opcode byte and the bytes after it (30_encoding.md R86) -/

theorem operandBytes_eq (op : Byte) :
    operandBytes op = if op ∈ [0x20, 0x40, 0x60, 0xA0, 0xE0] then 2 else if op ∈ [0x80, 0xC0] then 1 else 0 := by
  unfold operandBytes
  split <;> simp_all

theorem operandBytes_le_two (op : Byte) : operandBytes op ≤ 2 := by
  rw [operandBytes_eq]
  split_ifs <;> decide

/-- With all its bytes there, an instruction is decoded to one that those bytes encode. -/
theorem decode_cons_of_le {op : Byte} {rest : List Byte} (h : operandBytes op ≤ rest.length) :
    ∃ i, decode (op :: rest) = .ok (i, rest.drop (operandBytes op)) ∧
      encode i = op :: rest.take (operandBytes op) := by
  have hmax := operandBytes_le_two op
  match hk : operandBytes op, rest with
  | 0, rest => exact ⟨decodeOp op 0 0, by simp [decode, hk], by simp [encode_decodeOp, hk]⟩
  | 1, b1 :: rest => exact ⟨decodeOp op b1 0, by simp [decode, hk], by simp [encode_decodeOp, hk]⟩
  | 2, b1 :: b2 :: rest => exact ⟨decodeOp op b1 b2, by simp [decode, hk], by simp [encode_decodeOp, hk]⟩
  | 1, [] | 2, [] | 2, [_] | _ + 3, _ => simp [hk] at h hmax

theorem decode_cons_of_lt {op : Byte} {rest : List Byte} (h : rest.length < operandBytes op) :
    decode (op :: rest) = .error .truncated := by
  have hmax := operandBytes_le_two op
  match hk : operandBytes op, rest with
  | 1, [] | 2, [] | 2, [_] => simp [decode, hk]
  | 0, _ | 1, _ :: _ | 2, _ :: _ :: _ | _ + 3, _ => simp [hk] at h hmax

/-- Settles O3: the two cases of the decoder, on the length the opcode byte tells. -/
theorem lengthIsToldByTheOpcodeByte : Obligations.LengthIsToldByTheOpcodeByte := by
  intro op rest len
  have hlen : len = operandBytes op + 1 := by
    simp only [len, operandBytes_eq]
    split_ifs <;> rfl
  rw [hlen, Nat.add_sub_cancel]
  refine ⟨fun h => ?_, fun h => decode_cons_of_lt (by omega)⟩
  have hle : operandBytes op ≤ rest.length := by omega
  obtain ⟨i, hdec, henc⟩ := decode_cons_of_le hle
  exact ⟨i, hdec, by rw [henc, List.length_cons, List.length_take_of_le hle]⟩

/-- Settles O2: a string that decodes has all the bytes of its first instruction, and they are its encoding. -/
theorem encodeOfDecodeIsTheBytes : Obligations.EncodeOfDecodeIsTheBytes := by
  intro bs rest i hdec
  cases bs with
  | nil => cases hdec
  | cons op tail =>
    rcases Nat.lt_or_ge tail.length (operandBytes op) with hlt | hle
    · rw [decode_cons_of_lt hlt] at hdec
      cases hdec
    · obtain ⟨j, hj, henc⟩ := decode_cons_of_le hle
      rw [hj] at hdec
      cases hdec
      rw [henc, List.cons_append, List.take_append_drop]

/-! ### Decoding an encoded instruction -/

theorem decode_opByte (m : Mode) {n : BitVec 5} (hn : n ≠ 0) (rest : List Byte) :
    decode (opByte m n :: rest) = .ok (decodeBase n.toNat m, rest) := by
  simp [decode, Laws.EncodedLength.base m n hn, decodeOp_opByte m hn]

theorem decode_encode (i : Instr) (rest : List Byte) : decode (encode i ++ rest) = .ok (i, rest) := by
  cases i with
  | brk | lit b | litr b => rfl
  | jci v | jmi v | jsi v | lit2 v | lit2r v => simp [encode, decode, operandBytes, decodeOp]
  | inc m | pop m | nip m | swp m | rot m | dup m | ovr m
  | equ m | neq m | gth m | lth m
  | jmp m | jcn m | jsr m | sth m
  | ldz m | stz m | ldr m | str m | lda m | sta m | dei m | deo m
  | add m | sub m | mul m | div m | and m | ora m | eor m | sft m => exact decode_opByte m (by decide) rest

/-- Settles O1: every instruction is well-formed. -/
theorem decodeOfEncodeIsTheInstruction : Obligations.DecodeOfEncodeIsTheInstruction :=
  fun i rest _ => decode_encode i rest

end Sys2Proof
end

section
/-! PROOFS. The evaluation loop (40_eval_loop.md R100 to R113): starting an evaluation below the limit and at it. -/

namespace Sys2Proof.Machine

/-! ### Starting an evaluation (40_eval_loop.md R100, R113) -/

theorem State.evaluate_of_lt {s : State} (h : s.act.length < Config.maxNest) (v : Short) :
    s.evaluate v = { s with act := { pc := v } :: s.act } := if_pos h

theorem State.evaluate_of_le {s : State} (h : Config.maxNest ≤ s.act.length) (v : Short) :
    s.evaluate v = { s with fault := some .nestOverflow } := if_neg (Nat.not_lt.mpr h)

/-- Where the outside may call and its next call is a queued `Evaluate`, the step is the start of that evaluation. -/
theorem step_evaluate {s : State} {v : Short} {cs : List PortCall} (hturn : s.Idle ∨ s.HandlerTurn)
    (hcalls : s.calls = .evaluate v :: cs) : step s = .next (({ s with calls := cs } : State).evaluate v) :=
  step_call hturn hcalls

/-- Settles O6: the step is the start of the evaluation, which reads nothing but the number of records; a marked state
answers its mark. -/
theorem evaluatePushesOneRecordOrFaultsAtTheLimit : Obligations.EvaluatePushesOneRecordOrFaultsAtTheLimit := by
  intro s v cs hturn hcalls
  rw [step_evaluate hturn hcalls]
  refine ⟨fun hbelow => ?_, fun hlimit => ⟨?_, step_faulted rfl⟩⟩
  · exact congrArg Host.Outcome.next (State.evaluate_of_lt (s := { s with calls := cs }) hbelow v)
  · exact congrArg Host.Outcome.next (State.evaluate_of_le (s := { s with calls := cs }) hlimit v)

end Sys2Proof.Machine
end

section
/-! PROOFS. The immediate group (41_immediate.md R130 to R137): BRK, the three immediate jumps, the literals, and the
return of a call (44_control.md R185). -/

namespace Sys2Proof.Machine

/-! ### Decoding and fetching an immediate (30_encoding.md R86, R87) -/

section
variable {op : Byte}

theorem byteImmediate_of_decodeOp {i : Byte → Instr} (hlen : operandBytes op = 1)
    (hop : ∀ b1 b2, decodeOp op b1 b2 = i b1) : ByteImmediate op i := by
  refine ⟨fun b rest => by simp [decode, hlen, hop], fun s pc rest hruns hbyte => ?_⟩
  rw [step_runs hruns, fetch, hbyte, hop]

theorem shortImmediate_of_decodeOp {i : Short → Instr} (hlen : operandBytes op = 2)
    (hop : ∀ b1 b2, decodeOp op b1 b2 = i (shortOf b1 b2)) : ShortImmediate op i := by
  refine ⟨fun h l rest => by simp [decode, hlen, hop], fun s pc rest hruns hbyte => ?_⟩
  rw [step_runs hruns, fetch, hbyte, hop]

end

/-! ### The pc on integers (10_state.md R30) -/

theorem trunc16_add (m n : Int) : trunc16 (m + n) = trunc16 m + trunc16 n := BitVec.ofInt_add m n

theorem trunc16_toNat (v : Short) : trunc16 v.toNat = v := by
  rw [trunc16, BitVec.ofInt_natCast, BitVec.ofNat_toNat, BitVec.setWidth_eq]

theorem trunc16_toInt (v : Short) : trunc16 v.toInt = v := BitVec.ofInt_toInt

theorem trunc16_toNat_add_one (pc : Short) : trunc16 (pc.toNat + 1) = pc + 1 := by
  rw [trunc16_add, trunc16_toNat]
  rfl

theorem trunc16_toNat_add_two (pc : Short) : trunc16 (pc.toNat + 2) = pc + 2 := by
  rw [trunc16_add, trunc16_toNat]
  rfl

/-- The target of the three immediate jumps (41_immediate.md R132). -/
theorem trunc16_toNat_add_two_add_toInt (pc d : Short) : trunc16 (pc.toNat + 2 + d.toInt) = pc + 2 + d := by
  rw [trunc16_add, trunc16_toNat_add_two, trunc16_toInt]

/-! ### What a replaced stack and replaced activations leave alone -/

theorem onlyStackAndAct_setStack_act (s : State) (sel : StackSel) (S : Stack) (acts : List Activation) :
    OnlyStackAndAct sel s { s.setStack sel S with act := acts } where
  other := by rw [State.stack_withAct, State.setStack_stack_other]
  ram := s.setStack_ram sel S
  dev := s.setStack_dev sel S
  outside := ⟨s.setStack_fault sel S, s.setStack_inputs sel S, s.setStack_calls sel S, s.setStack_draws sel S⟩

/-- Every claim about a meaning that pops and pushes on one stack and moves the pc follows from its closed form here. -/
theorem stackAndAct_of_next_after {r : Result} {s : State} {sel : StackSel} {keep : Bool} {n : Nat} {bs : List Byte}
    {acts : List Activation}
    (h : r = .next { s.setStack sel ((s.stack sel).after keep n bs) with act := acts }) (hlen : bs.length ≤ 256) :
    ∃ t, r = .next t ∧ OnlyStackAndAct sel s t ∧ (s.stack sel).Became keep n bs (t.stack sel) ∧ t.act = acts := by
  refine ⟨_, h, onlyStackAndAct_setStack_act .., ?_, rfl⟩
  have hstack : ({ s.setStack sel ((s.stack sel).after keep n bs) with act := acts } : State).stack sel =
      (s.stack sel).after keep n bs := (State.stack_withAct ..).trans (State.setStack_stack ..)
  rw [hstack]
  exact Stack.after_became _ keep n bs hlen

/-! ### BRK -/

/-- Settles O7, from the encoding of BRK and what BRK answers in a running evaluation. -/
theorem haltEndsOnlyTheTopActivation : Obligations.HaltEndsOnlyTheTopActivation :=
  ⟨decode_encode .brk, fun _ _ _ hact => execBrk_eq hact⟩

/-! ### Immediate jumps -/

theorem condTrue_iff (c : Byte) : condTrue c = true ↔ c ≠ 0 := bne_iff_ne

/-- Settles O33: the popped byte alone decides which of the two pcs is taken. -/
theorem immediateConditionalJump : Obligations.ImmediateConditionalJump := by
  refine ⟨shortImmediate_of_decodeOp rfl fun _ _ => rfl, fun d s a rest hact => ?_⟩
  obtain ⟨t, hexec, hframe, hstack, hpc⟩ := stackAndAct_of_next_after (sel := .work) (execJci_eq hact d) (by simp)
  refine ⟨t, hexec, hframe, ?_, hstack⟩
  rw [hpc, trunc16_toNat_add_two_add_toInt, trunc16_toNat_add_two]
  simp only [condTrue_iff]

/-- Settles O34, from what JMI and JSI answer in a running evaluation. -/
theorem immediateJumpAndCall : Obligations.ImmediateJumpAndCall := by
  refine ⟨shortImmediate_of_decodeOp rfl fun _ _ => rfl, shortImmediate_of_decodeOp rfl fun _ _ => rfl,
    fun d s a rest hact => ?_⟩
  rw [trunc16_toNat_add_two_add_toInt, trunc16_toNat_add_two]
  obtain ⟨t, hexec, hframe, hstack, hpc⟩ := stackAndAct_of_next_after (sel := .ret) (execJsi_eq hact d) (by simp)
  exact ⟨execJmi_eq hact d, t, hexec, hframe, hpc, hstack⟩

/-! ### Literals -/

/-- Settles O35: each literal is a push of its bytes with the pc moved past them. -/
theorem literalsPushTheirImmediate : Obligations.LiteralsPushTheirImmediate := by
  refine ⟨byteImmediate_of_decodeOp rfl fun _ _ => rfl, shortImmediate_of_decodeOp rfl fun _ _ => rfl,
    byteImmediate_of_decodeOp rfl fun _ _ => rfl, shortImmediate_of_decodeOp rfl fun _ _ => rfl,
    fun b h l s a rest hact => ?_⟩
  have hlit2 := execLit2_eq hact (shortOf h l)
  have hlit2r := execLit2r_eq hact (shortOf h l)
  rw [hiByte_shortOf, loByte_shortOf] at hlit2 hlit2r
  rw [trunc16_toNat_add_one, trunc16_toNat_add_two]
  exact ⟨stackAndAct_of_next_after (sel := .work) (execLit_eq hact b) (by simp),
    stackAndAct_of_next_after (sel := .work) hlit2 (by simp),
    stackAndAct_of_next_after (sel := .ret) (execLitr_eq hact b) (by simp),
    stackAndAct_of_next_after (sel := .ret) hlit2r (by simp)⟩

/-! ### A call and its return (44_control.md R185) -/

/-- A short pushed is the short on top. -/
theorem Stack.item_pushW_short (S : Stack) (v : Short) : (S.pushW true v).item true 0 = v := by
  have hlow : (S.pushW true v).peek 0 = loByte v := by simp [Stack.pushW, Stack.push2, Stack.peek, Stack.push1_cell]
  have hhigh : (S.pushW true v).peek 1 = hiByte v := by
    simp [Stack.pushW, Stack.push2, Stack.peek, Stack.push1_cell]
  calc (S.pushW true v).item true 0
    _ = shortOf ((S.pushW true v).peek 1) ((S.pushW true v).peek 0) := rfl
    _ = v := by rw [hhigh, hlow, shortOf_hiByte_loByte]

/-- A short popped off again leaves the pointer where it was before the push. -/
theorem Stack.ptr_after_pushW_short (S : Stack) (v : Short) : ((S.pushW true v).after false 2 []).ptr = S.ptr := by
  rw [Stack.after_nil, Stack.setPtr_ptr, Stack.baseAfter, Stack.pushW_ptr]
  exact BitVec.add_sub_cancel ..

/-- Settles O60: JMP2r takes the short that JSI pushed as its target, and moves the pointer back over it. -/
theorem returnComesBackAfterTheCall : Obligations.ReturnComesBackAfterTheCall := by
  intro s d a rest hact
  have hpush : s.rst.after false 0 [hiByte (a.pc + 2), loByte (a.pc + 2)] = s.rst.pushW true (a.pc + 2) :=
    (s.rst.pushW_after true (a.pc + 2)).symm
  have hcall := execJsi_eq hact d
  rw [hpush] at hcall
  have hreturn := s.rst.item_pushW_short (a.pc + 2)
  exact ⟨_, _, hcall, execJmp_eq _ rfl, congrArg (fun pc => { a with pc := pc } :: rest) hreturn,
    Stack.ptr_after_pushW_short .., rfl, rfl⟩

end Sys2Proof.Machine
end

section
/-! PROOFS. The base operations that touch one stack only (40_eval_loop.md R105), and of these the stack operations
(42_stack.md R150 to R157). -/

namespace Sys2Proof.Machine

/-! ### The eight encodings of a base operation (30_encoding.md R80, R84) -/

theorem opcodeOf_toNat (m : Mode) (n : BitVec 5) : opcodeOf m n.toNat = opByte m n := by
  obtain ⟨k, r, s⟩ := m
  revert n
  cases k <;> cases r <;> cases s <;> decide

theorem baseEncoded_decodeBase {n : BitVec 5} (hn : n ≠ 0) : BaseEncoded (decodeBase n.toNat) n.toNat := by
  intro m rest
  rw [opcodeOf_toNat, decode_opByte m hn]

/-! ### One stack, nothing else (40_eval_loop.md R105) -/

theorem State.setStack_withAct (s : State) (sel : StackSel) (S : Stack) :
    { s.setStack sel S with act := s.act } = s.setStack sel S := by cases sel <;> rfl

/-- Every claim about the base operation numbered `n`, where it pops and pushes on its active stack only, follows from
its closed form here. -/
theorem stackOnlyResult_of_after (n : BitVec 5) (hn : n ≠ 0) {popped : Bool → Nat} {pushed : Mode → Stack → List Byte}
    (hexec : ∀ m s, exec (decodeBase n.toNat m) s = .next (s.setStack m.active
      ((s.stack m.active).after m.keep (popped m.short) (pushed m (s.stack m.active)))))
    (hlen : ∀ m S, (pushed m S).length ≤ 256) : StackOnlyResult (decodeBase n.toNat) n.toNat popped pushed := by
  refine ⟨baseEncoded_decodeBase hn, fun m s => ?_⟩
  have hnext := hexec m s
  rw [← State.setStack_withAct] at hnext
  obtain ⟨t, ht, hframe, hstack, hact⟩ := stackAndAct_of_next_after hnext (hlen m _)
  exact ⟨t, ht, ⟨hframe, hact⟩, hstack⟩

theorem bytesOf_length_le (short : Bool) (v : Short) : (bytesOf short v).length ≤ 2 := by
  cases short <;> simp [bytesOf]

theorem bytesOf_append_length_le {bs : List Byte} {k : Nat} (h : bs.length ≤ k) (short : Bool) (v : Short) :
    (bs ++ bytesOf short v).length ≤ k + 2 := by
  rw [List.length_append]
  exact Nat.add_le_add h (bytesOf_length_le short v)

/-! ### Stack operations (42_stack.md R150 to R157) -/

/-- The bytes of a successor computed on 16 bits are those of the successor of the number, in both widths. -/
theorem bytesOf_add_one (short : Bool) (v : Short) : bytesOf short (v + 1) = bytesOfNat short (v.toNat + 1) := by
  have hsucc : v + 1 = BitVec.ofNat 16 (v.toNat + 1) := by bv_omega
  rw [bytesOfNat, hsucc]

/-- Settles O21: INC is the shared one-operand operation, its result read as a number. -/
theorem incrementAddsOneAtItsWidth : Obligations.IncrementAddsOneAtItsWidth := by
  refine stackOnlyResult_of_after 0x01 (by decide) (fun m s => ?_)
    fun _ _ => (bytesOf_length_le ..).trans (by decide)
  rw [← bytesOf_add_one]
  exact unaryOp_eq m s fun a => a + 1

/-- Settles O22: each operation by the closed form of its meaning, with at most three items pushed. -/
theorem stackShufflesMoveWholeItems : Obligations.StackShufflesMoveWholeItems := by
  have one (w v) : (bytesOf w v).length ≤ 256 := (bytesOf_length_le w v).trans (by decide)
  have two (w v v') : (bytesOf w v ++ bytesOf w v').length ≤ 256 :=
    (bytesOf_append_length_le (bytesOf_length_le w v) w v').trans (by decide)
  have three (w v v' v'') : (bytesOf w v ++ bytesOf w v' ++ bytesOf w v'').length ≤ 256 :=
    (bytesOf_append_length_le (bytesOf_append_length_le (bytesOf_length_le w v) w v') w v'').trans (by decide)
  refine ⟨?pop, ?nip, ?swp, ?rot, ?dup, ?ovr⟩
  case pop => exact stackOnlyResult_of_after 0x02 (by decide) execPop_eq fun _ _ => Nat.zero_le _
  case nip =>
    exact stackOnlyResult_of_after 0x03 (by decide) (fun m s => binaryOp_eq m s fun _ b => b) fun _ _ => one ..
  case swp => exact stackOnlyResult_of_after 0x04 (by decide) execSwp_eq fun _ _ => two ..
  case rot => exact stackOnlyResult_of_after 0x05 (by decide) execRot_eq fun _ _ => three ..
  case dup => exact stackOnlyResult_of_after 0x06 (by decide) execDup_eq fun _ _ => two ..
  case ovr => exact stackOnlyResult_of_after 0x07 (by decide) execOvr_eq fun _ _ => three ..

end Sys2Proof.Machine
end

section
/-! PROOFS. The comparisons (43_compare.md R170 to R174): one boolean byte in both widths, and the two relations of
equality. -/

namespace Sys2Proof.Machine

/-! ### One boolean byte (43_compare.md R174) -/

/-- Every claim about the comparison numbered `n` follows from the byte its relation pushes. -/
theorem stackOnlyResult_of_compareOp (n : BitVec 5) (hn : n ≠ 0) {rel : Short → Short → Bool}
    {result : Short → Short → Byte} (hexec : ∀ m s, exec (decodeBase n.toNat m) s = compareOp m rel s)
    (hresult : ∀ a b, boolByte (rel a b) = result a b) :
    StackOnlyResult (decodeBase n.toNat) n.toNat (fun w => 2 * widthOf w)
      (fun m S => [result (S.item m.short 1) (S.item m.short 0)]) := by
  refine stackOnlyResult_of_after n hn (fun m s => ?_) fun _ _ => by simp
  rw [hexec, compareOp_eq, hresult]

theorem boolByte_eq_ite {p : Bool} {P : Prop} [Decidable P] (h : p = true ↔ P) :
    boolByte p = if P then 0x01 else 0x00 := if_congr h rfl rfl

/-! ### Equality (43_compare.md R170, R171) -/

theorem boolByte_beq (a b : Short) : boolByte (a == b) = if a.toNat = b.toNat then 0x01 else 0x00 :=
  boolByte_eq_ite (beq_iff_eq.trans BitVec.toNat_inj.symm)

theorem boolByte_bne (a b : Short) : boolByte (a != b) = if a.toNat = b.toNat then 0x00 else 0x01 :=
  (boolByte_eq_ite (bne_iff_ne.trans (not_congr BitVec.toNat_inj.symm))).trans (ite_not ..)

/-- Settles O23: each is the shared comparison, its relation on words read as one on numbers. -/
theorem equalityPushesOneBooleanByte : Obligations.EqualityPushesOneBooleanByte :=
  ⟨stackOnlyResult_of_compareOp 0x08 (by decide) (fun _ _ => rfl) boolByte_beq,
    stackOnlyResult_of_compareOp 0x09 (by decide) (fun _ _ => rfl) boolByte_bne⟩

end Sys2Proof.Machine
end

section
/-! PROOFS. Stack transfer (44_control.md R183): the two stacks change and nothing else. -/

namespace Sys2Proof.Machine

theorem outsideUnchanged_setStack_setStack_other (s : State) (sel : StackSel) (S O : Stack) :
    OutsideUnchanged s ((s.setStack sel S).setStack sel.other O) where
  fault := by simp only [State.setStack_fault]
  inputs := by simp only [State.setStack_inputs]
  calls := by simp only [State.setStack_calls]
  draws := by simp only [State.setStack_draws]

/-- Settles O29: in the closed form of STH the active stack is popped only and the opposite one pushed only, the item on
top before the pop. -/
theorem stashMovesToTheOppositeStack : Obligations.StashMovesToTheOppositeStack := by
  refine ⟨baseEncoded_decodeBase (n := 0x0F) (by decide), fun m s => ⟨_, execSth_eq m s, ?popped, ?pushed, ?ram, ?dev,
    ?act, outsideUnchanged_setStack_setStack_other ..⟩⟩
  case popped =>
    rw [State.setStack_other_stack, State.setStack_stack]
    exact Stack.after_became _ _ _ _ (Nat.zero_le _)
  case pushed =>
    rw [State.setStack_stack]
    exact Stack.after_became _ _ _ _ ((bytesOf_length_le ..).trans (by decide))
  case ram => simp only [State.setStack_ram]
  case dev => simp only [State.setStack_dev]
  case act => simp only [State.setStack_act]

end Sys2Proof.Machine
end

section
/-! PROOFS. Loads (45_memory_device.md R200 to R204): they read RAM and change nothing but the active stack. -/

namespace Sys2Proof.Machine

/-- Every claim about a meaning that pops and pushes on one stack, whatever it reads, follows from its closed form here. -/
theorem onlyStack_of_next_after {r : Result} {s : State} {sel : StackSel} {keep : Bool} {n : Nat} {bs : List Byte}
    (h : r = .next (s.setStack sel ((s.stack sel).after keep n bs))) (hlen : bs.length ≤ 256) :
    ∃ t, r = .next t ∧ OnlyStack sel s t ∧ (s.stack sel).Became keep n bs (t.stack sel) := by
  rw [← State.setStack_withAct] at h
  obtain ⟨t, ht, hframe, hstack, hact⟩ := stackAndAct_of_next_after h hlen
  exact ⟨t, ht, ⟨hframe, hact⟩, hstack⟩

/-- The bytes of a value read at a 16-bit address are the bytes of bank 0 there (20_memory.md R52, R53). -/
theorem bytesOf_memRead (m : Memory) (short : Bool) (addr : Short) :
    bytesOf short (memRead m short addr) =
      if short then [bankRead1 m 0 addr, bankRead1 m 0 (addr + 1)] else [bankRead1 m 0 addr] := by
  cases short with
  | false => exact congrArg (fun b => [b]) (loByte_zextByte _)
  | true => exact congrArg₂ (fun h l => [h, l]) (hiByte_shortOf ..) (loByte_shortOf ..)

/-- Settles O36: the closed form of LDA, the bytes it pushes read as those of bank 0. -/
theorem absoluteLoad : Obligations.AbsoluteLoad := by
  refine ⟨baseEncoded_decodeBase (n := 0x14) (by decide), fun m s => ?_⟩
  dsimp only
  rw [← bytesOf_memRead]
  exact onlyStack_of_next_after (execLda_eq m s) ((bytesOf_length_le ..).trans (by decide))

end Sys2Proof.Machine
end

section
/-! PROOFS. Arithmetic and logic (46_alu.md R220, R222, R224 to R226): two items popped, one pushed at their width. -/

namespace Sys2Proof.Machine

/-! ### The bytes of a result, read as a number (10_state.md R26, R27) -/

theorem bytesOfNat_toNat (short : Bool) (v : Short) : bytesOfNat short v.toNat = bytesOf short v := by
  rw [bytesOfNat, BitVec.ofNat_toNat, BitVec.setWidth_eq]

theorem ofNat_mod_two_pow (k n : Nat) : BitVec.ofNat k (n % 2 ^ k) = BitVec.ofNat k n :=
  BitVec.eq_of_toNat_eq (Nat.mod_mod ..)

/-- The bytes of a number at a width hold exactly its value modulo that width. -/
theorem bytesOfNat_mod (short : Bool) (n : Nat) : bytesOfNat short (n % 2 ^ (8 * widthOf short)) = bytesOfNat short n := by
  cases short with
  | false =>
    have hlow : loByte (BitVec.ofNat 16 (n % 2 ^ 8)) = loByte (BitVec.ofNat 16 n) := by
      rw [loByte_ofNat, loByte_ofNat, ofNat_mod_two_pow]
    exact congrArg (fun b => [b]) hlow
  | true => exact congrArg (bytesOf true) (ofNat_mod_two_pow 16 n)

theorem bytesOf_add (short : Bool) (a b : Short) : bytesOf short (a + b) = bytesOfNat short (a.toNat + b.toNat) := by
  rw [bytesOfNat, BitVec.ofNat_add, BitVec.ofNat_toNat, BitVec.ofNat_toNat, BitVec.setWidth_eq, BitVec.setWidth_eq]

theorem bytesOf_mul (short : Bool) (a b : Short) : bytesOf short (a * b) = bytesOfNat short (a.toNat * b.toNat) := by
  rw [bytesOfNat, BitVec.ofNat_mul, BitVec.ofNat_toNat, BitVec.ofNat_toNat, BitVec.setWidth_eq, BitVec.setWidth_eq]

theorem bytesOf_and (short : Bool) (a b : Short) : bytesOf short (a &&& b) = bytesOfNat short (a.toNat &&& b.toNat) := by
  rw [← BitVec.toNat_and, bytesOfNat_toNat]

theorem bytesOf_or (short : Bool) (a b : Short) : bytesOf short (a ||| b) = bytesOfNat short (a.toNat ||| b.toNat) := by
  rw [← BitVec.toNat_or, bytesOfNat_toNat]

theorem bytesOf_xor (short : Bool) (a b : Short) : bytesOf short (a ^^^ b) = bytesOfNat short (a.toNat ^^^ b.toNat) := by
  rw [← BitVec.toNat_xor, bytesOfNat_toNat]

/-! ### Two operands, one result -/

/-- Every claim about the two-operand operation numbered `n` follows from the bytes its function gives, read as those of
a number in both widths. -/
theorem stackOnlyResult_of_binaryOp (n : BitVec 5) (hn : n ≠ 0) {f : Short → Short → Short}
    {result : Bool → Nat → Nat → Nat} (hexec : ∀ m s, exec (decodeBase n.toNat m) s = binaryOp m f s)
    (hresult : ∀ w a b, bytesOf w (f a b) = bytesOfNat w (result w a.toNat b.toNat)) :
    StackOnlyResult (decodeBase n.toNat) n.toNat (fun w => 2 * widthOf w)
      (fun m S => bytesOfNat m.short (result m.short (S.item m.short 1).toNat (S.item m.short 0).toNat)) := by
  refine stackOnlyResult_of_after n hn (fun m s => ?_) fun _ _ => (bytesOf_length_le ..).trans (by decide)
  rw [hexec, binaryOp_eq, hresult]

/-- Settles O25: the sum and the product on 16 bits have, in both widths, the bytes of the exact ones, which are those
of their values modulo the width. -/
theorem addAndMultiplyWrapAtTheirWidth : Obligations.AddAndMultiplyWrapAtTheirWidth :=
  ⟨stackOnlyResult_of_binaryOp 0x18 (by decide) (result := fun w a b => (a + b) % 2 ^ (8 * widthOf w)) (fun _ _ => rfl)
      fun w a b => (bytesOf_add w a b).trans (bytesOfNat_mod w _).symm,
    stackOnlyResult_of_binaryOp 0x1A (by decide) (result := fun w a b => a * b % 2 ^ (8 * widthOf w)) (fun _ _ => rfl)
      fun w a b => (bytesOf_mul w a b).trans (bytesOfNat_mod w _).symm⟩

/-- Settles O27: each operation on 16-bit words is the one on their numbers, bit by bit. -/
theorem logicIsBitwise : Obligations.LogicIsBitwise :=
  ⟨stackOnlyResult_of_binaryOp 0x1C (by decide) (result := fun _ a b => a &&& b) (fun _ _ => rfl) bytesOf_and,
    stackOnlyResult_of_binaryOp 0x1D (by decide) (result := fun _ a b => a ||| b) (fun _ _ => rfl) bytesOf_or,
    stackOnlyResult_of_binaryOp 0x1E (by decide) (result := fun _ a b => a ^^^ b) (fun _ _ => rfl) bytesOf_xor⟩

end Sys2Proof.Machine
end

section
/-! PROOFS. Every instruction completes in a running evaluation, and only the top activation steps (60_exceptions.md
R240, R260; 10_state.md R32). -/

namespace Sys2Proof.Machine

/-! ### What leaves alone what the outside owns -/

section
variable {s t : State}

theorem outsideUnchanged_setStack (s : State) (sel : StackSel) (S : Stack) : OutsideUnchanged s (s.setStack sel S) :=
  ⟨s.setStack_fault sel S, s.setStack_inputs sel S, s.setStack_calls sel S, s.setStack_draws sel S⟩

theorem OutsideUnchanged.withAct (h : OutsideUnchanged s t) (acts : List Activation) :
    OutsideUnchanged s { t with act := acts } := ⟨h.fault, h.inputs, h.calls, h.draws⟩

theorem OutsideUnchanged.setRam (h : OutsideUnchanged s t) (m : Memory) : OutsideUnchanged s (t.setRam m) :=
  ⟨h.fault, h.inputs, h.calls, h.draws⟩

theorem OutsideUnchanged.devWrite1 (h : OutsideUnchanged s t) (x b : Byte) : OutsideUnchanged s (t.devWrite1 x b) :=
  ⟨h.fault, h.inputs, h.calls, h.draws⟩

end

/-! ### Every instruction completes (60_exceptions.md R240) -/

/-- The result has a next state, in which nothing the outside owns has changed and one record stands on `rest`. -/
def CompletesOn (s : State) (rest : List Activation) (r : Result) : Prop :=
  ∃ t a, r = .next t ∧ OutsideUnchanged s t ∧ t.act = a :: rest

section
variable {s : State} {a a' : Activation} {rest : List Activation} {r : Result} {sel : StackSel} {S : Stack}

/-- Replacing a stack and the top record completes. -/
theorem completesOn_of_setStack_act (h : r = .next { s.setStack sel S with act := a' :: rest }) :
    CompletesOn s rest r :=
  ⟨_, a', h, (outsideUnchanged_setStack s sel S).withAct _, rfl⟩

/-- Replacing a stack alone completes with the top record as it was. -/
theorem completesOn_of_setStack (hact : s.act = a :: rest) (h : r = .next (s.setStack sel S)) :
    CompletesOn s rest r := by
  rw [← State.setStack_withAct, hact] at h
  exact completesOn_of_setStack_act h

/-- A store to RAM after the replacing of a stack completes. -/
theorem completesOn_of_setStack_setRam {m : Memory} (hact : s.act = a :: rest)
    (h : r = .next ((s.setStack sel S).setRam m)) : CompletesOn s rest r :=
  ⟨_, a, h, (outsideUnchanged_setStack s sel S).setRam m, (s.setStack_act sel S).trans hact⟩

end

section
variable {s : State} {a : Activation} {rest : List Activation} (hact : s.act = a :: rest) (m : Mode)
include hact

theorem unaryOp_completesOn (f : Short → Short) : CompletesOn s rest (unaryOp m f s) :=
  completesOn_of_setStack hact (unaryOp_eq m s f)

theorem binaryOp_completesOn (f : Short → Short → Short) : CompletesOn s rest (binaryOp m f s) :=
  completesOn_of_setStack hact (binaryOp_eq m s f)

theorem compareOp_completesOn (rel : Short → Short → Bool) : CompletesOn s rest (compareOp m rel s) :=
  completesOn_of_setStack hact (compareOp_eq m s rel)

/-- In a running evaluation every instruction but BRK completes with one record on those below the top. -/
theorem exec_completesOn {i : Instr} (hi : i ≠ .brk) : CompletesOn s rest (exec i s) := by
  unfold exec
  cases i with
  | brk => exact absurd rfl hi
  -- shared operations
  | inc m => exact unaryOp_completesOn hact m _
  | nip m | add m | sub m | mul m | div m | and m | ora m | eor m => exact binaryOp_completesOn hact m _
  | equ m | neq m | gth m | lth m => exact compareOp_completesOn hact m _
  -- one stack
  | pop m => exact completesOn_of_setStack hact (execPop_eq m s)
  | swp m => exact completesOn_of_setStack hact (execSwp_eq m s)
  | rot m => exact completesOn_of_setStack hact (execRot_eq m s)
  | dup m => exact completesOn_of_setStack hact (execDup_eq m s)
  | ovr m => exact completesOn_of_setStack hact (execOvr_eq m s)
  | sft m => exact completesOn_of_setStack hact (execSft_eq m s)
  | ldz m => exact completesOn_of_setStack hact (execLdz_eq m s)
  | lda m => exact completesOn_of_setStack hact (execLda_eq m s)
  | ldr m => exact completesOn_of_setStack hact (execLdr_eq m hact)
  -- one stack and the top activation
  | jci d => exact completesOn_of_setStack_act (execJci_eq hact d)
  | jsi d => exact completesOn_of_setStack_act (execJsi_eq hact d)
  | lit b => exact completesOn_of_setStack_act (execLit_eq hact b)
  | lit2 v => exact completesOn_of_setStack_act (execLit2_eq hact v)
  | litr b => exact completesOn_of_setStack_act (execLitr_eq hact b)
  | lit2r v => exact completesOn_of_setStack_act (execLit2r_eq hact v)
  | jmp m => exact completesOn_of_setStack_act (execJmp_eq m hact)
  | jcn m => exact completesOn_of_setStack_act (execJcn_eq m hact)
  | dei m => exact completesOn_of_setStack_act (execDei_eq m hact)
  -- the top activation alone, or both stacks
  | jmi d => exact ⟨_, _, execJmi_eq hact d, ⟨rfl, rfl, rfl, rfl⟩, rfl⟩
  | sth m =>
    exact ⟨_, _, execSth_eq m s, outsideUnchanged_setStack_setStack_other .., by simpa using hact⟩
  | jsr m =>
    exact ⟨_, _, execJsr_eq m hact, (outsideUnchanged_setStack_setStack_other ..).withAct _, rfl⟩
  -- stores and device output
  | stz m => exact completesOn_of_setStack_setRam hact (execStz_eq m s)
  | sta m => exact completesOn_of_setStack_setRam hact (execSta_eq m s)
  | str m => exact completesOn_of_setStack_setRam hact (execStr_eq m hact)
  | deo m =>
    exact ⟨_, _, execDeo_eq m hact, ((outsideUnchanged_setStack ..).devWrite1 _ _).withAct _, rfl⟩

end

/-- Settles O12: BRK ends the top activation, every other instruction leaves one record in its place. -/
theorem everyInstructionCompletesInAnEvaluation : Obligations.EveryInstructionCompletesInAnEvaluation := by
  intro i s hne
  obtain ⟨a, rest, hact⟩ := List.exists_cons_of_ne_nil hne
  by_cases hi : i = .brk
  · subst hi
    exact ⟨_, execBrk_eq hact, rfl, rfl, rfl, rfl⟩
  · obtain ⟨t, _, hnext, hout, _⟩ := exec_completesOn hact hi
    exact ⟨t, hnext, hout⟩

/-! ### A step at an intercept (60_exceptions.md R243, R244) -/

section
variable {s t : State} {a : Activation} {rest : List Activation} (hact : s.act = a :: rest)
include hact

theorem State.setSusp_act_cons (r : Option Suspended) : (s.setSusp r).act = { a with susp := r } :: rest := by
  rw [State.setSusp_cons hact]

/-- An answered input changes at most what is left of the suspended instruction. -/
theorem answerInput_act_cons (r : Suspended) : ∃ a', (answerInput r s).act = a' :: rest ∧ a'.pc = a.pc := by
  have hdrawn (x : Byte) : (drawInput s x).2.act = a :: rest := (drawInput_act s x).trans hact
  cases r with
  | inByte addr dest => exact ⟨_, State.setSusp_act_cons ((State.setStack_act ..).trans (hdrawn addr)) _, rfl⟩
  | inHigh addr dest => exact ⟨_, State.setSusp_act_cons (hdrawn addr) _, rfl⟩
  | inLow addr hi dest => exact ⟨_, State.setSusp_act_cons ((State.setStack_act ..).trans (hdrawn addr)) _, rfl⟩
  | outByte addr | outHigh addr low lowAddr => exact ⟨a, hact, rfl⟩

/-- A call of the outside keeps the top record's pc, or pushes a record on it. -/
theorem applyCall_act_cons {c : PortCall} (h : applyCall c s = .next t) :
    (∃ a', t.act = a' :: rest ∧ a'.pc = a.pc) ∨ ∃ v, t.act = { pc := v, susp := none } :: a :: rest := by
  rcases applyCall_act h with hsame | ⟨-, rfl⟩ | ⟨v, -, rfl⟩
  · exact .inl ⟨a, hsame.trans hact, rfl⟩
  · rcases returnFromOutput_act s with ⟨-, hnil⟩ | ⟨b, b', rest', hb, hb', hpc⟩
    · cases hact.symm.trans hnil
    · cases hact.symm.trans hb
      exact .inl ⟨b', hb', hpc⟩
  · rcases s.evaluate_cases v with ⟨-, heval⟩ | ⟨-, heval⟩ <;> rw [heval]
    · exact .inr ⟨v, congrArg _ hact⟩
    · exact .inl ⟨a, hact, rfl⟩

theorem outsideStep_act_cons {x : Option Byte} (h : outsideStep s x = .next t) :
    (∃ a', t.act = a' :: rest ∧ a'.pc = a.pc) ∨ ∃ v, t.act = { pc := v, susp := none } :: a :: rest :=
  applyCall_act_cons ((drawCall_act s x).trans hact) h

/-- At an intercept the top record's pc stays; a record is pushed on it inside an output intercept only. -/
theorem interceptStep_act_cons {r : Suspended} (hr : a.susp = some r) (h : interceptStep r s = .next t) :
    (∃ a', t.act = a' :: rest ∧ a'.pc = a.pc) ∨
      ∃ v, t.act = { pc := v, susp := none } :: a :: rest ∧ a.inOutput = true := by
  cases r with
  | outByte addr | outHigh addr _ _ =>
    have hout : a.inOutput = true := by simp [Activation.inOutput, hr]
    exact (outsideStep_act_cons (x := some addr) hact h).imp_right fun ⟨v, hpush⟩ => ⟨v, hpush, hout⟩
  | inByte _ _ | inHigh _ _ | inLow _ _ _ =>
    cases h
    exact .inl (answerInput_act_cons hact _)

end

/-! ### Only the top activation steps (60_exceptions.md R260) -/

/-- Only the byte 0x00 is decoded to BRK, the encoding of BRK being that byte. -/
theorem memRead1_of_fetch_eq_brk {m : Memory} {pc : Short} (h : fetch m pc = .brk) : memRead1 m pc = 0x00 := by
  have hencode := encode_decodeOp (memRead1 m pc) (memRead1 m (pc + 1)) (memRead1 m (pc + 2))
  rw [← fetch, h] at hencode
  exact (List.cons.inj hencode).1.symm

/-- Settles O9: a step of a machine with an activation is one at an intercept, a BRK, or another instruction. -/
theorem onlyTheTopActivationSteps : Obligations.OnlyTheTopActivationSteps := by
  intro s t a rest hact hstep
  cases hfault : s.fault with
  | some f => cases (step_faulted hfault).symm.trans hstep
  | none =>
    obtain ⟨pc, susp⟩ := a
    cases susp with
    | some r =>
      rw [step_suspended hfault hact rfl] at hstep
      rcases interceptStep_act_cons hact rfl hstep with ⟨a', hact', hpc⟩ | hpush
      · exact .inl ⟨a', hact', fun _ => hpc⟩
      · exact .inr (.inr hpush)
    | none =>
      rw [step_runs ⟨hfault, hact⟩] at hstep
      by_cases hbrk : fetch s.ram pc = .brk
      · have hhalt := execBrk_eq (s := { s with act := { pc := pc + 1 } :: rest }) rfl
        rw [hbrk] at hstep
        cases hhalt.symm.trans hstep
        exact .inr (.inl ⟨rfl, rfl, memRead1_of_fetch_eq_brk hbrk⟩)
      · obtain ⟨_, a', hnext, -, hact'⟩ :=
          exec_completesOn (s := { s with act := { pc := pc + 1 } :: rest }) rfl hbrk
        cases hnext.symm.trans hstep
        exact .inl ⟨a', hact', fun hsusp => absurd rfl hsusp⟩

end Sys2Proof.Machine
end

section
/-! PROOFS. What a step keeps (10_state.md R32, R33): RAM in canonical form, at most `MAX_NEST` records, and the records
below the top inside output intercepts. -/

namespace Sys2Proof.Machine

/-! ### RAM after an instruction (20_memory.md R66) -/

/-- With no record the instructions that need one have no next state. -/
theorem exec_refused_of_act_nil {i : Instr} {s : State} (hact : s.act = []) (hi : needsActivation i = true) :
    exec i s = .refused .noActivation := by
  unfold exec
  cases i with
  | brk | jci d | jmi d | jsi d | lit b | lit2 v | litr b | lit2r v
  | jmp m | jcn m | jsr m | ldr m | str m | dei m | deo m => exact running_nil hact _
  | _ => cases hi

/-- An instruction leaves RAM alone or stores one value, in the zero page or at a 16-bit address of bank 0. -/
theorem exec_ram_cases {i : Instr} {s t : State} (h : exec i s = .next t) :
    t.ram = s.ram ∨ (∃ w a v, t.ram = zpWrite s.ram w a v) ∨ ∃ w addr v, t.ram = memWrite s.ram w addr v := by
  cases i with
  | stz m =>
    cases (execStz_eq m s).symm.trans h
    exact .inr (.inl ⟨_, _, _, rfl⟩)
  | sta m =>
    cases (execSta_eq m s).symm.trans h
    exact .inr (.inr ⟨_, _, _, rfl⟩)
  | str m =>
    cases hact : s.act with
    | nil => cases (exec_refused_of_act_nil hact rfl).symm.trans h
    | cons a rest =>
      cases (execStr_eq m hact).symm.trans h
      exact .inr (.inr ⟨_, _, _, rfl⟩)
  | _ => exact .inl ((exec_memoryFrame _ s t h).1 rfl)

theorem exec_wf {i : Instr} {s t : State} (h : exec i s = .next t) (hw : s.ram.wf = true) : t.ram.wf = true := by
  rcases exec_ram_cases h with e | ⟨w, a, v, e⟩ | ⟨w, addr, v, e⟩ <;> rw [e]
  · exact hw
  · exact zpWrite_wf w a v hw
  · exact bankWrite_wf w v hw

/-! ### The number of records (10_state.md R33) -/

/-- In a running evaluation an instruction adds no record. -/
theorem exec_act_length_le {i : Instr} {s t : State} (hne : s.act ≠ []) (h : exec i s = .next t) :
    t.act.length ≤ s.act.length := by
  obtain ⟨a, rest, hact⟩ := List.exists_cons_of_ne_nil hne
  by_cases hi : i = .brk
  · subst hi
    cases (execBrk_eq hact).symm.trans h
    simp [hact]
  · obtain ⟨_, a', hnext, -, hact'⟩ := exec_completesOn hact hi
    cases hnext.symm.trans h
    simp [hact, hact']

/-- A call of the outside adds a record only below the limit. -/
theorem applyCall_depth {c : PortCall} {s t : State} (h : applyCall c s = .next t)
    (hd : s.act.length ≤ Config.maxNest) : t.act.length ≤ Config.maxNest := by
  rcases applyCall_act h with hsame | ⟨-, rfl⟩ | ⟨v, -, rfl⟩
  · rwa [hsame]
  · rcases returnFromOutput_act s with ⟨hnil, -⟩ | ⟨a, a', rest, hact, hact', -⟩
    · simp [hnil]
    · rwa [hact', List.length_cons, ← List.length_cons (a := a), ← hact]
  · rcases s.evaluate_cases v with ⟨hlt, heval⟩ | ⟨-, heval⟩ <;> rw [heval]
    · exact hlt
    · exact hd

/-! ### A move of the outside -/

/-- A move of the outside is the drawn call, in the state after the draw. -/
theorem outsideStep_eq (s : State) (x : Option Byte) :
    outsideStep s x = applyCall (drawCall s x).1 (drawCall s x).2 := rfl

theorem outsideStep_wf {s t : State} {x : Option Byte} (h : outsideStep s x = .next t) (hw : s.ram.wf = true) :
    t.ram.wf = true := by
  rw [outsideStep_eq] at h
  exact applyCall_wf h (by rwa [drawCall_ram])

theorem outsideStep_depth {s t : State} {x : Option Byte} (h : outsideStep s x = .next t)
    (hd : s.act.length ≤ Config.maxNest) : t.act.length ≤ Config.maxNest := by
  rw [outsideStep_eq] at h
  exact applyCall_depth h (by rwa [drawCall_act])

/-! ### From idleness (60_exceptions.md R261) -/

theorem returnFromOutput_of_act_nil {s : State} (h : s.act = []) : returnFromOutput s = s := by
  simp [returnFromOutput, h]

/-- With no record, a move of the outside leaves none or is the start of an evaluation, which pushes the only one. -/
theorem outsideStep_act_nil {s t : State} {x : Option Byte} (hact : s.act = []) (h : outsideStep s x = .next t) :
    t.act = [] ∨ ∃ v, (drawCall s x).1 = .evaluate v ∧ t = (drawCall s x).2.evaluate v ∧
      t.act = [{ pc := v, susp := none }] := by
  have hdrawn : (drawCall s x).2.act = [] := (drawCall_act s x).trans hact
  rw [outsideStep_eq] at h
  rcases applyCall_act h with hsame | ⟨-, rfl⟩ | ⟨v, hcall, rfl⟩
  · exact .inl (hsame.trans hdrawn)
  · exact .inl (by rw [returnFromOutput_of_act_nil hdrawn, hdrawn])
  · have hroom : (drawCall s x).2.act.length < Config.maxNest := by rw [hdrawn]; exact Nat.succ_pos _
    exact .inr ⟨v, hcall, rfl, by rw [State.evaluate_of_lt hroom, hdrawn]⟩

/-! ### Every step (10_state.md R32, R33) -/

section
variable {s t : State} (h : step s = .next t)
include h

theorem fault_eq_none_of_step_next : s.fault = none := by
  cases hfault : s.fault with
  | none => rfl
  | some f => cases (step_faulted hfault).symm.trans h

theorem step_wf (hw : s.ram.wf = true) : t.ram.wf = true := by
  rcases step_cases (fault_eq_none_of_step_next h) with ⟨-, e⟩ | ⟨a, rest, r, -, -, e⟩ | ⟨pc, rest, -, e⟩ <;>
    rw [e] at h
  · exact outsideStep_wf h hw
  · rcases interceptStep_cases r s with ⟨x, e⟩ | e <;> rw [e] at h
    · exact outsideStep_wf h hw
    · cases h
      rwa [(answerInput_frame r s).1]
  · exact exec_wf h hw

theorem step_depth (hd : s.act.length ≤ Config.maxNest) : t.act.length ≤ Config.maxNest := by
  rcases step_cases (fault_eq_none_of_step_next h) with ⟨-, e⟩ | ⟨a, rest, r, -, -, e⟩ | ⟨pc, rest, hruns, e⟩ <;>
    rw [e] at h
  · exact outsideStep_depth h hd
  · rcases interceptStep_cases r s with ⟨x, e⟩ | e <;> rw [e] at h
    · exact outsideStep_depth h hd
    · cases h
      obtain ⟨-, -, -, -, -, hlen⟩ := answerInput_frame r s
      rwa [hlen]
  · refine (exec_act_length_le (List.cons_ne_nil _ _) h).trans ?_
    rwa [hruns.2] at hd

/-- The records below the top stay inside output intercepts: a record comes to lie below another only there. -/
theorem step_below (hb : ∀ a ∈ s.act.tail, a.inOutput = true) : ∀ a ∈ t.act.tail, a.inOutput = true := by
  cases hact : s.act with
  | nil =>
    rw [step_idle ⟨fault_eq_none_of_step_next h, hact⟩] at h
    rcases outsideStep_act_nil hact h with hnil | ⟨v, -, -, hone⟩
    · simp [hnil]
    · simp [hone]
  | cons a rest =>
    rw [hact, List.tail_cons] at hb
    rcases onlyTheTopActivationSteps s t a rest hact h with ⟨a', e, -⟩ | ⟨e, -⟩ | ⟨v, e, hout⟩ <;> rw [e]
    · exact hb
    · exact fun b hmem => hb b (List.mem_of_mem_tail hmem)
    · exact List.forall_mem_cons.mpr ⟨hout, hb⟩

end

/-- Settles O16: each part of the invariant is kept by every step. -/
theorem everyStepKeepsTheInvariant : Obligations.EveryStepKeepsTheInvariant :=
  fun _ _ hinv h => ⟨step_wf h hinv.ram, step_depth h hinv.depth, step_below h hinv.below⟩

/-- Settles O15: no byte is listed and there is no record. -/
theorem invariantHoldsAtReset : Obligations.InvariantHoldsAtReset :=
  ⟨rfl, Nat.zero_le _, List.forall_mem_nil _⟩

end Sys2Proof.Machine
end

section
/-! PROOFS. The step as a whole (40_eval_loop.md R102; 60_exceptions.md R241, R249, R250, R261): what it fetches, when
the machine becomes idle and leaves idleness, who may move, and where it stops. -/

namespace Sys2Proof.Machine

/-! ### Fetch (40_eval_loop.md R102) -/

/-- With two bytes after the opcode byte the decoder gives the instruction at the three. -/
theorem decode_three (op b1 b2 : Byte) :
    decode [op, b1, b2] = .ok (decodeOp op b1 b2, [b1, b2].drop (operandBytes op)) := by
  have h := decode_encode (decodeOp op b1 b2) ([b1, b2].drop (operandBytes op))
  rwa [encode_decodeOp, List.cons_append, List.take_append_drop] at h

/-- Settles O5: the fetched instruction is the one the three bytes decode to. -/
theorem stepRunsTheDecodedInstruction : Obligations.StepRunsTheDecodedInstruction := by
  intro s pc rest i tail hruns hdec
  rw [decode_three] at hdec
  cases hdec
  exact step_runs hruns

/-- Settles O4: each word is evaluated. -/
theorem wordsOfTheOpcodeMapDecode : Obligations.WordsOfTheOpcodeMapDecode := ⟨rfl, rfl, rfl, rfl, rfl, rfl⟩

/-! ### Runs -/

theorem run_zero (s : State) : core.run 0 s = .next s := rfl

/-- A run goes on from the next state of its first step. -/
theorem run_succ {s t : State} (h : step s = .next t) (k : Nat) : core.run (k + 1) s = core.run k t := by
  have hstep : core.step s = .next t := h
  simp only [Host.Core.run, hstep]

/-! ### Nested evaluation (40_eval_loop.md R111, R112) -/

theorem fetch_eq_brk {m : Memory} {pc : Short} (h : memRead1 m pc = 0x00) : fetch m pc = .brk := by
  rw [fetch, h]
  rfl

/-- A byte 0x00 at the pc ends the evaluation that is about to fetch it. -/
theorem step_brk {s : State} {pc : Short} {rest : List Activation} (hruns : s.RunsAt pc rest)
    (hbyte : memRead1 s.ram pc = 0x00) : step s = .next { s with act := rest } := by
  rw [step_runs hruns, fetch_eq_brk hbyte]
  exact execBrk_eq rfl

/-- Settles O8: the first step pushes a record on those of the handler, the second ends it. -/
theorem nestedEvaluationReturnsToItsHandler : Obligations.NestedEvaluationReturnsToItsHandler := by
  intro s v cs hturn hcalls hbyte hroom
  have hstart := (evaluatePushesOneRecordOrFaultsAtTheLimit s v cs (.inr hturn) hcalls).1 hroom
  have hruns : State.RunsAt { s with calls := cs, act := { pc := v } :: s.act } v s.act := ⟨hturn.1, rfl⟩
  rw [run_succ hstart, run_succ (step_brk hruns hbyte), run_zero]

/-! ### Idleness (60_exceptions.md R261) -/

/-- Settles O10: of the three ways a step changes `ACT` only a BRK with no record below leaves none, and from none the
outside can only start an evaluation. -/
theorem idlenessIsEnteredByBrkAndLeftByEvaluate : Obligations.IdlenessIsEnteredByBrkAndLeftByEvaluate := by
  refine fun s t h => ⟨fun hne hnil => ?_, fun hnil hne => ?_⟩
  · obtain ⟨a, rest, hact⟩ := List.exists_cons_of_ne_nil hne
    rcases onlyTheTopActivationSteps s t a rest hact h with ⟨a', e, -⟩ | ⟨e, hsusp, hbyte⟩ | ⟨v, e, -⟩
    · cases hnil.symm.trans e
    · cases hnil.symm.trans e
      exact ⟨a, hact, hsusp, hbyte⟩
    · cases hnil.symm.trans e
  · rw [step_idle ⟨fault_eq_none_of_step_next h, hnil⟩] at h
    exact (outsideStep_act_nil hnil h).resolve_left hne

/-! ### The outside while an instruction runs (60_exceptions.md R250) -/

/-- In a running evaluation the step is an instruction, which completes and leaves alone what the outside owns. -/
theorem step_next_of_runsAt {s : State} {pc : Short} {rest : List Activation} (hruns : s.RunsAt pc rest) :
    ∃ t, step s = .next t ∧ OutsideUnchanged s t := by
  obtain ⟨t, hnext, hout⟩ := everyInstructionCompletesInAnEvaluation (fetch s.ram pc)
    { s with act := { pc := pc + 1 } :: rest } (List.cons_ne_nil _ _)
  exact ⟨t, (step_runs hruns).trans hnext, hout.fault, hout.inputs, hout.calls, hout.draws⟩

/-- Settles O11: the step has one next state. -/
theorem outsideHasNoMoveDuringAnInstruction : Obligations.OutsideHasNoMoveDuringAnInstruction := by
  intro s t pc rest hruns h
  obtain ⟨t', hnext, hout⟩ := step_next_of_runsAt hruns
  cases hnext.symm.trans h
  exact hout

/-! ### Instructions outside any evaluation (10_state.md R43) -/

section
variable {s : State} {r : Result} (hact : s.act = [])
include hact

theorem next_act_nil_of_setStack {sel : StackSel} {S : Stack} (h : r = .next (s.setStack sel S)) :
    ∃ t, r = .next t ∧ t.act = [] := ⟨_, h, (s.setStack_act sel S).trans hact⟩

theorem exec_next_of_act_nil {i : Instr} (hi : needsActivation i = false) : ∃ t, exec i s = .next t ∧ t.act = [] := by
  unfold exec
  cases i with
  | inc m => exact next_act_nil_of_setStack hact (unaryOp_eq m s _)
  | nip m | add m | sub m | mul m | div m | and m | ora m | eor m =>
    exact next_act_nil_of_setStack hact (binaryOp_eq m s _)
  | equ m | neq m | gth m | lth m => exact next_act_nil_of_setStack hact (compareOp_eq m s _)
  | pop m => exact next_act_nil_of_setStack hact (execPop_eq m s)
  | swp m => exact next_act_nil_of_setStack hact (execSwp_eq m s)
  | rot m => exact next_act_nil_of_setStack hact (execRot_eq m s)
  | dup m => exact next_act_nil_of_setStack hact (execDup_eq m s)
  | ovr m => exact next_act_nil_of_setStack hact (execOvr_eq m s)
  | sft m => exact next_act_nil_of_setStack hact (execSft_eq m s)
  | ldz m => exact next_act_nil_of_setStack hact (execLdz_eq m s)
  | lda m => exact next_act_nil_of_setStack hact (execLda_eq m s)
  | sth m => exact ⟨_, execSth_eq m s, by simpa using hact⟩
  | stz m => exact ⟨_, execStz_eq m s, by simpa using hact⟩
  | sta m => exact ⟨_, execSta_eq m s, by simpa using hact⟩
  | _ => cases hi

end

/-- Settles O13: the instructions that ask for the pc are refused, the closed forms of the others do not. -/
theorem noProgramCounterOutsideAnEvaluation : Obligations.NoProgramCounterOutsideAnEvaluation :=
  fun _ _ hact => ⟨exec_refused_of_act_nil hact, exec_next_of_act_nil hact⟩

/-! ### Where a step stops (60_exceptions.md R241, R249) -/

section
variable {s : State} {c : PortCall}

theorem not_nextCall_of_fault {f : Fault} (h : s.fault = some f) : ¬ s.NextCall c := fun hc => by
  cases h.symm.trans hc.1

theorem nextCall_iff_of_idle (h : s.Idle) : s.NextCall c ↔ (drawCall s none).1 = c := by
  simp [State.NextCall, h.1, h.2]

/-- In an output intercept the handler's call is the next one. -/
theorem nextCall_iff_of_output {a : Activation} {rest : List Activation} {r : Suspended} {addr : Byte}
    (hfault : s.fault = none) (hact : s.act = a :: rest) (hr : a.susp = some r)
    (hout : r = .outByte addr ∨ ∃ low lowAddr, r = .outHigh addr low lowAddr) :
    s.NextCall c ↔ (drawCall s (some addr)).1 = c := by
  rcases hout with rfl | ⟨low, lowAddr, rfl⟩ <;> simp [State.NextCall, hfault, hact, hr]

/-- Elsewhere in an evaluation the outside may not call. -/
theorem not_nextCall_of_not_inOutput {a : Activation} {rest : List Activation} (hact : s.act = a :: rest)
    (h : a.inOutput = false) : ¬ s.NextCall c := by
  rintro ⟨-, ⟨hnil, -⟩ | ⟨b, rest', addr, hb, hout, -⟩⟩
  · cases hact.symm.trans hnil
  · cases hact.symm.trans hb
    rcases hout with hr | ⟨low, lowAddr, hr⟩ <;> simp [Activation.inOutput, hr] at h

theorem outsideStep_no_fault {x : Option Byte} {f : Fault} : outsideStep s x ≠ .fault f := applyCall_no_fault

theorem step_no_fault (hfault : s.fault = none) (f : Fault) : step s ≠ .fault f := by
  rcases step_cases hfault with ⟨-, e⟩ | ⟨a, rest, r, -, -, e⟩ | ⟨pc, rest, hruns, -⟩
  · rw [e]
    exact outsideStep_no_fault
  · rw [e]
    rcases interceptStep_cases r s with ⟨x, e⟩ | e <;> rw [e]
    · exact outsideStep_no_fault
    · exact nofun
  · obtain ⟨t, e, -⟩ := step_next_of_runsAt hruns
    rw [e]
    exact nofun

theorem step_fault_iff {f : Fault} : step s = .fault f ↔ s.fault = some f := by
  refine ⟨fun h => ?_, step_faulted⟩
  cases hfault : s.fault with
  | none => exact absurd h (step_no_fault hfault f)
  | some g =>
    cases (step_faulted hfault).symm.trans h
    rfl

theorem interceptStep_refused_iff {a : Activation} {rest : List Activation} {r : Suspended} {ρ : Refusal}
    (hfault : s.fault = none) (hact : s.act = a :: rest) (hr : a.susp = some r) :
    interceptStep r s = .refused ρ ↔ ρ = .destroyed ∧ s.NextCall .destroy := by
  cases r with
  | outByte addr =>
    rw [nextCall_iff_of_output hfault hact hr (.inl rfl)]
    exact outsideStep_refused_iff (a := some addr)
  | outHigh addr low lowAddr =>
    rw [nextCall_iff_of_output hfault hact hr (.inr ⟨low, lowAddr, rfl⟩)]
    exact outsideStep_refused_iff (a := some addr)
  | inByte _ _ | inHigh _ _ | inLow _ _ _ =>
    have hno : ¬ s.NextCall .destroy :=
      not_nextCall_of_not_inOutput hact (by simp [Activation.inOutput, hr])
    exact iff_of_false nofun fun h => hno h.2

theorem step_refused_iff {ρ : Refusal} : step s = .refused ρ ↔ ρ = .destroyed ∧ s.NextCall .destroy := by
  cases hfault : s.fault with
  | some f =>
    rw [step_faulted hfault]
    exact iff_of_false nofun fun h => not_nextCall_of_fault hfault h.2
  | none =>
    rcases step_cases hfault with ⟨hnil, e⟩ | ⟨a, rest, r, hact, hr, e⟩ | ⟨pc, rest, hruns, -⟩
    · rw [e, nextCall_iff_of_idle ⟨hfault, hnil⟩]
      exact outsideStep_refused_iff
    · rw [e]
      exact interceptStep_refused_iff hfault hact hr
    · obtain ⟨t, e, -⟩ := step_next_of_runsAt hruns
      rw [e]
      exact iff_of_false nofun fun h => not_nextCall_of_not_inOutput hruns.2 rfl h.2

end

/-- Settles O14: an instruction and an answered input always complete, so only the mark and the call remain. -/
theorem stepStopsOnlyByTheMarkOrByDestroy : Obligations.StepStopsOnlyByTheMarkOrByDestroy :=
  ⟨fun _ _ => step_fault_iff, fun _ _ => step_refused_iff⟩

/-! ### Construction (70_reset_and_hazards.md R272) -/

/-- Settles O17, each field by the definition of the reset state. -/
theorem constructionStateIsZero : Obligations.ConstructionStateIsZero :=
  ⟨fun sel i => by simp, fun _ _ => rfl, State.reset.devZero_devRead1, rfl, rfl⟩

end Sys2Proof.Machine
end

section
/-! PROOFS. The rest of the comparisons and of arithmetic (43_compare.md R172, R173; 46_alu.md R221, R223, R227), where
the order of the operands tells. -/

namespace Sys2Proof.Machine

/-! ### Order (43_compare.md R172, R173) -/

theorem boolByte_ult (a b : Short) : boolByte (a.ult b) = if a.toNat < b.toNat then 0x01 else 0x00 :=
  boolByte_eq_ite BitVec.ult_iff_toNat_lt

/-- Settles O24: both are the shared comparison with the unsigned order, GTH with its operands exchanged. -/
theorem orderIsUnsignedWithTheDeeperOperandOnTheLeft : Obligations.OrderIsUnsignedWithTheDeeperOperandOnTheLeft :=
  ⟨stackOnlyResult_of_compareOp 0x0A (by decide) (result := fun a b => if a.toNat > b.toNat then 0x01 else 0x00)
      (fun _ _ => rfl) fun a b => boolByte_ult b a,
    stackOnlyResult_of_compareOp 0x0B (by decide) (fun _ _ => rfl) boolByte_ult⟩

/-! ### Subtraction and division (46_alu.md R221, R223) -/

/-- An item is a number of its width. -/
theorem Stack.item_toNat_lt (S : Stack) (short : Bool) (k : Nat) :
    (S.item short k).toNat < 2 ^ (8 * widthOf short) := by
  cases short with
  | false => exact (zextByte_toNat _).trans_lt (BitVec.isLt _)
  | true => exact BitVec.isLt _

/-- The difference on 16 bits has the bytes of the number that is `a - b` with one turn of the width added. -/
theorem bytesOf_sub {short : Bool} {a b : Short} (hb : b.toNat < 2 ^ (8 * widthOf short)) :
    bytesOf short (a - b) =
      bytesOfNat short ((a.toNat + 2 ^ (8 * widthOf short) - b.toNat) % 2 ^ (8 * widthOf short)) := by
  have hwidth : 8 * widthOf short = 8 ∨ 8 * widthOf short = 16 := by cases short <;> simp [widthOf]
  have hdiff : (a - b).toNat % 2 ^ (8 * widthOf short) =
      (a.toNat + 2 ^ (8 * widthOf short) - b.toNat) % 2 ^ (8 * widthOf short) := by
    rw [BitVec.toNat_sub]
    rcases hwidth with hw | hw <;> rw [hw] at hb ⊢ <;> omega
  rw [← hdiff, bytesOfNat_mod, bytesOfNat_toNat]

/-- The quotient on 16 bits is that of the numbers, which gives 0 for the divisor 0. -/
theorem bytesOf_div (short : Bool) (a b : Short) :
    bytesOf short (if b = 0 then 0 else a / b) =
      bytesOfNat short (if b.toNat = 0 then 0 else a.toNat / b.toNat) := by
  have hzero : b = 0 ↔ b.toNat = 0 := BitVec.toNat_inj.symm
  rw [← bytesOfNat_toNat, apply_ite BitVec.toNat, if_congr hzero rfl rfl]
  rfl

/-- Settles O26: each is the shared two-operand operation; the subtrahend being of its width, no borrow is lost. -/
theorem subtractAndDivideTakeTheDeeperOperandOnTheLeft :
    Obligations.SubtractAndDivideTakeTheDeeperOperandOnTheLeft := by
  constructor
  · refine stackOnlyResult_of_after 0x19 (by decide) (fun m s => ?_) fun _ _ => (bytesOf_length_le ..).trans (by decide)
    rw [← bytesOf_sub (Stack.item_toNat_lt ..)]
    exact binaryOp_eq m s fun a b => a - b
  · exact stackOnlyResult_of_binaryOp 0x1B (by decide) (f := fun a b => if b = 0 then 0 else a / b)
      (result := fun _ a b => if b = 0 then 0 else a / b) (fun _ _ => rfl) bytesOf_div

/-! ### Shift (46_alu.md R227) -/

/-- A shifted value is the number divided and multiplied by powers of two, read on 16 bits. -/
theorem shiftBy_eq (c : Byte) (a : Short) :
    shiftBy c a = BitVec.ofNat 16 (a.toNat / 2 ^ (c.toNat % 16) * 2 ^ (c.toNat / 16)) := by
  have hright : (c.extractLsb' 0 4).toNat = c.toNat % 16 := by simp
  have hleft : (c.extractLsb' 4 4).toNat = c.toNat / 16 := by
    have := c.isLt
    simp only [BitVec.extractLsb'_toNat, Nat.shiftRight_eq_div_pow]
    omega
  apply BitVec.eq_of_toNat_eq
  rw [shiftBy, hright, hleft, BitVec.toNat_shiftLeft, BitVec.toNat_ushiftRight, Nat.shiftLeft_eq,
    Nat.shiftRight_eq_div_pow, BitVec.toNat_ofNat]

/-- Settles O28: the bits past the width are those the push drops. -/
theorem shiftGoesRightThenLeft : Obligations.ShiftGoesRightThenLeft := by
  refine stackOnlyResult_of_after 0x1F (by decide) (fun m s => ?_) fun _ _ => (bytesOf_length_le ..).trans (by decide)
  rw [bytesOfNat_mod, bytesOfNat, ← shiftBy_eq, Nat.add_comm]
  exact execSft_eq m s

end Sys2Proof.Machine
end

section
/-! PROOFS. The jumps (44_control.md R180 to R182, R184): each goes to its target, one after a test, one after the pc
was saved on the opposite stack. -/

namespace Sys2Proof.Machine

/-- Settles O30, from the closed form of JMP. -/
theorem jumpGoesToItsTarget : Obligations.JumpGoesToItsTarget := by
  refine ⟨baseEncoded_decodeBase (n := 0x0C) (by decide), fun m s a rest hact => ?_⟩
  obtain ⟨t, hexec, hframe, hstack, hpc⟩ := stackAndAct_of_next_after (execJmp_eq m hact) (Nat.zero_le _)
  rw [jumpTarget_eq] at hpc
  exact ⟨t, hexec, hframe, hpc, hstack⟩

/-- Settles O31: the condition byte alone decides which of the two pcs is taken. -/
theorem conditionalJumpTestsOneByte : Obligations.ConditionalJumpTestsOneByte := by
  refine ⟨baseEncoded_decodeBase (n := 0x0D) (by decide), ?_⟩
  intro m s a rest hact taken target
  obtain ⟨t, hexec, hframe, hstack, hpc⟩ := stackAndAct_of_next_after (execJcn_eq m hact) (Nat.zero_le _)
  rw [jumpTarget_eq] at hpc
  simp only [condTrue_iff] at hpc
  exact ⟨t, hexec, hframe, hpc, hstack⟩

/-- With both stacks and the activations replaced, each stack is the one put there. -/
theorem State.setStack_both_withAct_stack (s : State) (sel : StackSel) (S O : Stack) (acts : List Activation) :
    ({ (s.setStack sel S).setStack sel.other O with act := acts } : State).stack sel = S := by cases sel <;> rfl

theorem State.setStack_both_withAct_stack_other (s : State) (sel : StackSel) (S O : Stack) (acts : List Activation) :
    ({ (s.setStack sel S).setStack sel.other O with act := acts } : State).stack sel.other = O := by cases sel <;> rfl

/-- Settles O32: in the closed form of JSR the active stack is popped only and the opposite one pushed only. -/
theorem jumpToSubroutineSavesThePc : Obligations.JumpToSubroutineSavesThePc := by
  refine ⟨baseEncoded_decodeBase (n := 0x0E) (by decide), fun m s a rest hact => ⟨_, execJsr_eq m hact, ?target,
    ?popped, ?pushed, ?ram, ?dev, (outsideUnchanged_setStack_setStack_other ..).withAct _⟩⟩
  case target => rw [jumpTarget_eq]
  case popped =>
    rw [State.setStack_both_withAct_stack]
    exact Stack.after_became _ _ _ _ (Nat.zero_le _)
  case pushed =>
    rw [State.setStack_both_withAct_stack_other]
    exact Stack.after_became _ _ _ _ (by simp)
  case ram => simp only [State.setStack_ram]
  case dev => simp only [State.setStack_dev]

end Sys2Proof.Machine
end

section
/-! PROOFS. Stores and the remaining loads (45_memory_device.md R200 to R205): what a store makes of RAM, the stores and
loads themselves, and the store to the byte fetched next (20_memory.md R73). -/

namespace Sys2Proof.Machine

/-! ### What RAM became (20_memory.md R54, R57) -/

section
variable {m : Memory} {bank : Bank} {off off' : Short} {b b' : Byte} (hw : m.wf = true)
include hw

theorem memoryBecame_bankWrite1 : MemoryBecame m bank [(off, b)] (bankWrite1 m bank off b) := by
  constructor
  · intro c hc
    cases List.mem_singleton.mp hc
    exact bankRead1_bankWrite1_self hw
  · exact fun _ _ h => bankRead1_bankWrite1_ne (h.imp_right fun hne => hne _ (List.mem_singleton_self _))

/-- Two bytes written to different offsets both stand there. -/
theorem memoryBecame_bankWrite1_bankWrite1 (hne : off ≠ off') :
    MemoryBecame m bank [(off, b), (off', b')] (bankWrite1 (bankWrite1 m bank off b) bank off' b') := by
  constructor
  · refine List.forall_mem_cons.mpr ⟨?_, List.forall_mem_singleton.mpr ?_⟩
    · exact (bankRead1_bankWrite1_ne (.inr hne)).trans (bankRead1_bankWrite1_self hw)
    · exact bankRead1_bankWrite1_self (bankWrite1_wf hw)
  · intro c x h
    have hfirst : c ≠ bank ∨ x ≠ off := h.imp_right fun hx => hx (off, b) (by simp)
    have hsecond : c ≠ bank ∨ x ≠ off' := h.imp_right fun hx => hx (off', b') (by simp)
    exact (bankRead1_bankWrite1_ne hsecond).trans (bankRead1_bankWrite1_ne hfirst)

theorem memoryBecame_bankWrite (short : Bool) (v : Short) :
    MemoryBecame m bank (memCells short off v) (bankWrite m short bank off v) := by
  cases short with
  | false => exact memoryBecame_bankWrite1 hw
  | true => exact memoryBecame_bankWrite1_bankWrite1 hw (short_add_one_ne off).symm

theorem memoryBecame_zpWrite (short : Bool) (a : Byte) (v : Short) :
    MemoryBecame m 0 (zpCells short a v) (zpWrite m short a v) := by
  cases short with
  | false => exact memoryBecame_bankWrite1 hw
  | true =>
    have hne : zextByte a ≠ zextByte (a + 1) := fun h => byte_add_one_ne a (zextByte_inj.mp h).symm
    exact memoryBecame_bankWrite1_bankWrite1 hw hne

end

/-- Every claim about a store, whatever its address, follows from its closed form and what RAM became. -/
theorem store_of_next_after {r : Result} {s : State} {sel : StackSel} {keep : Bool} {n : Nat} {ram : Memory}
    {cells : List (Short × Byte)} (h : r = .next ((s.setStack sel ((s.stack sel).after keep n [])).setRam ram))
    (hram : MemoryBecame s.ram 0 cells ram) :
    ∃ t, r = .next t ∧ (s.stack sel).Became keep n [] (t.stack sel) ∧ MemoryBecame s.ram 0 cells t.ram ∧
      t.stack sel.other = s.stack sel.other ∧ t.dev = s.dev ∧ t.act = s.act ∧ OutsideUnchanged s t := by
  refine ⟨_, h, ?popped, hram, by simp, by simp, by simp, (outsideUnchanged_setStack ..).setRam _⟩
  case popped =>
    rw [State.setRam_stack, State.setStack_stack]
    exact Stack.after_became _ _ _ _ (Nat.zero_le _)

/-! ### The zero page (45_memory_device.md R200, R201) -/

theorem bytesOf_zpRead (m : Memory) (short : Bool) (a : Byte) :
    bytesOf short (zpRead m short a) =
      if short then [bankRead1 m 0 (zextByte a), bankRead1 m 0 (zextByte (a + 1))]
      else [bankRead1 m 0 (zextByte a)] := by
  cases short with
  | false => exact congrArg (fun b => [b]) (loByte_zextByte _)
  | true => exact congrArg₂ (fun h l => [h, l]) (hiByte_shortOf ..) (loByte_shortOf ..)

/-- Settles O38: the closed forms of LDZ and STZ, the two addresses of a short being different. -/
theorem zeroPageLoadAndStore : Obligations.ZeroPageLoadAndStore := by
  refine ⟨baseEncoded_decodeBase (n := 0x10) (by decide), baseEncoded_decodeBase (n := 0x11) (by decide), ?_⟩
  intro m s S
  rw [← bytesOf_zpRead]
  exact ⟨onlyStack_of_next_after (execLdz_eq m s) ((bytesOf_length_le ..).trans (by decide)),
    fun hw => store_of_next_after (execStz_eq m s) (memoryBecame_zpWrite hw ..)⟩

/-! ### Relative and absolute addresses (45_memory_device.md R202, R203, R205) -/

/-- The relative address, on integers (20_memory.md R58). -/
theorem trunc16_toNat_add_toInt (pc : Short) (d : Byte) : trunc16 (pc.toNat + d.toInt) = relAddr pc d :=
  (add_sextByte pc d).symm

/-- Settles O37, from the closed form of LDR. -/
theorem relativeLoad : Obligations.RelativeLoad := by
  refine ⟨baseEncoded_decodeBase (n := 0x12) (by decide), fun m s a rest hact => ?_⟩
  dsimp only
  rw [trunc16_toNat_add_toInt, ← bytesOf_memRead]
  exact onlyStack_of_next_after (execLdr_eq m hact) ((bytesOf_length_le ..).trans (by decide))

/-- Settles O39, from the closed form of STR. -/
theorem relativeStore : Obligations.RelativeStore := by
  refine ⟨baseEncoded_decodeBase (n := 0x13) (by decide), fun m s a rest hw hact => ?_⟩
  rw [trunc16_toNat_add_toInt]
  exact store_of_next_after (execStr_eq m hact) (memoryBecame_bankWrite hw ..)

/-- Settles O40, from the closed form of STA. -/
theorem absoluteStore : Obligations.AbsoluteStore :=
  ⟨baseEncoded_decodeBase (n := 0x15) (by decide),
    fun m s hw => store_of_next_after (execSta_eq m s) (memoryBecame_bankWrite hw ..)⟩

/-! ### The store to the byte fetched next (20_memory.md R73) -/

/-- A base operation's byte is fetched as that operation, whatever follows it. -/
theorem fetch_opcodeOf {m : Memory} {pc : Short} {mode : Mode} {n : BitVec 5} (hn : n ≠ 0)
    (h : memRead1 m pc = opcodeOf mode n.toNat) : fetch m pc = decodeBase n.toNat mode := by
  rw [fetch, h, opcodeOf_toNat, decodeOp_opByte mode hn]

/-- The step that fetches a base operation's byte runs that operation. -/
theorem step_opcodeOf {s : State} {pc : Short} {rest : List Activation} {mode : Mode} {n : BitVec 5} (hn : n ≠ 0)
    (hruns : s.RunsAt pc rest) (h : memRead1 s.ram pc = opcodeOf mode n.toNat) :
    step s = exec (decodeBase n.toNat mode) { s with act := { pc := pc + 1 } :: rest } := by
  rw [step_runs hruns, fetch_opcodeOf hn h]

/-- The mode with no flag set. -/
def plainMode : Mode := { keep := false, ret := false, short := false }

/-- A byte of bank 0 is fetched as written, the bytes after it as before. -/
theorem fetch_bankWrite1 {m : Memory} (hw : m.wf = true) (pc : Short) (b : Byte) :
    fetch (bankWrite1 m 0 pc b) pc = decodeOp b (memRead1 m (pc + 1)) (memRead1 m (pc + 2)) := by
  have hop : memRead1 (bankWrite1 m 0 pc b) pc = b := bankRead1_bankWrite1_self hw
  have h1 : memRead1 (bankWrite1 m 0 pc b) (pc + 1) = memRead1 m (pc + 1) :=
    bankRead1_bankWrite1_ne (.inr (short_add_one_ne pc))
  have h2 : memRead1 (bankWrite1 m 0 pc b) (pc + 2) = memRead1 m (pc + 2) :=
    bankRead1_bankWrite1_ne (.inr (by bv_omega))
  rw [fetch, hop, h1, h2]

/-- What STR with displacement 0 stores: the byte below the displacement, at the advanced pc. -/
theorem memWrite_relAddr_zero (m : Memory) (pc : Short) (S : Stack) :
    memWrite m false (relAddr pc 0x00) (S.itemAt false 1) = bankWrite1 m 0 pc (S.peek 1) := by
  have haddr : relAddr pc 0x00 = pc := BitVec.add_zero pc
  rw [haddr]
  exact congrArg (bankWrite1 m 0 pc) (loByte_zextByte _)

/-- STR with no flag pops two bytes of the work stack and stores one. -/
theorem execStr_plainMode {s : State} {a : Activation} {rest : List Activation} (hact : s.act = a :: rest) :
    execStr plainMode s = .next ((s.setStack .work (s.wst.after false 2 [])).setRam
      (memWrite s.ram false (relAddr a.pc (s.wst.peek 0)) (s.wst.itemAt false 1))) := by
  have hactive : plainMode.active = .work := rfl
  have hcount : 1 + widthOf plainMode.short = 2 := rfl
  rw [execStr_eq plainMode hact, hactive, hcount]
  rfl

/-- Settles O41: STR stores its byte at the advanced pc, where the next step fetches, and leaves the bytes after it. -/
theorem storedByteIsTheNextInstruction : Obligations.StoredByteIsTheNextInstruction := by
  intro s pc rest hruns hw hbyte hdisp
  have hstep : step s = execStr plainMode { s with act := { pc := pc + 1 } :: rest } :=
    step_opcodeOf (mode := plainMode) (n := 0x13) (by decide) hruns hbyte
  rw [execStr_plainMode rfl, hdisp, memWrite_relAddr_zero] at hstep
  have h2 : pc + 1 + 1 = pc + 2 := BitVec.add_assoc ..
  have h3 : pc + 1 + 2 = pc + 3 := BitVec.add_assoc ..
  refine ⟨_, hstep, ⟨hruns.1, rfl⟩, bankRead1_bankWrite1_self hw, ?_⟩
  refine (step_runs (pc := pc + 1) (rest := rest) (by exact ⟨hruns.1, rfl⟩)).trans ?_
  rw [State.setRam_ram, fetch_bankWrite1 hw, h2, h3]

end Sys2Proof.Machine
end

section
/-! PROOFS. The banks (20_memory.md R51, R52): canonical RAM is told by its bytes, and instructions neither change nor
depend on any bank but bank 0. -/

namespace Sys2Proof.Machine

/-! ### Canonical RAM (20_memory.md R51) -/

/-- Every linear index is a byte of a bank. -/
theorem ramKey_surjective {k : Nat} (h : k < Config.ramBytes) : ∃ bank off, ramKey bank off = k := by
  refine ⟨BitVec.ofNat 4 (k / 65536), BitVec.ofNat 16 (k % 65536), ?_⟩
  simp only [Config.ramBytes, Config.bankBytes] at h
  simp only [ramKey, Config.bankBytes, BitVec.toNat_ofNat]
  omega

/-- Settles O43: equal readings at every linear index. -/
theorem canonicalRamsThatReadTheSameAreEqual : Obligations.CanonicalRamsThatReadTheSameAreEqual := by
  refine fun m n hm hn h => Memory.ext_from hm hn fun k hk => ?_
  obtain ⟨bank, off, rfl⟩ := ramKey_surjective hk
  exact h bank off

/-! ### No other bank is changed (20_memory.md R52) -/

theorem exec_other_bank {i : Instr} {s t : State} (h : exec i s = .next t) {bank : Bank} (hb : bank ≠ 0) (off : Short) :
    bankRead1 t.ram bank off = bankRead1 s.ram bank off := by
  rcases exec_ram_cases h with e | ⟨w, a, v, e⟩ | ⟨w, addr, v, e⟩ <;> rw [e]
  · exact bankRead1_zpWrite_other_bank w a v hb
  · exact bankRead1_bankWrite_other_bank w v hb

/-! ### Bank 0 alone is read (20_memory.md R52, R53, R57) -/

/-- Bank 0 of two RAMs reads the same. -/
def SameBankZero (m n : Memory) : Prop := ∀ off, bankRead1 n 0 off = bankRead1 m 0 off

section
variable {m n : Memory} (h : SameBankZero m n)
include h

theorem SameBankZero.fetch (pc : Short) : fetch n pc = fetch m pc := by
  simp only [Machine.fetch, memRead1, h _]

theorem SameBankZero.memRead (short : Bool) (addr : Short) : memRead n short addr = memRead m short addr := by
  simp only [Machine.memRead, bankRead, h _]

theorem SameBankZero.zpRead (short : Bool) (a : Byte) : zpRead n short a = zpRead m short a := by
  simp only [Machine.zpRead, memRead1, h _]

variable (hm : m.wf = true) (hn : n.wf = true)
include hm hn

theorem SameBankZero.bankWrite1 (off : Short) (b : Byte) :
    SameBankZero (bankWrite1 m 0 off b) (bankWrite1 n 0 off b) := by
  intro x
  by_cases hx : x = off
  · subst hx
    rw [bankRead1_bankWrite1_self hm, bankRead1_bankWrite1_self hn]
  · rw [bankRead1_bankWrite1_ne (.inr hx), bankRead1_bankWrite1_ne (.inr hx), h x]

theorem SameBankZero.memWrite (short : Bool) (addr v : Short) :
    SameBankZero (memWrite m short addr v) (memWrite n short addr v) := by
  cases short with
  | false => exact h.bankWrite1 hm hn _ _
  | true => exact (h.bankWrite1 hm hn _ _).bankWrite1 (bankWrite1_wf hm) (bankWrite1_wf hn) _ _

theorem SameBankZero.zpWrite (short : Bool) (a : Byte) (v : Short) :
    SameBankZero (zpWrite m short a v) (zpWrite n short a v) := by
  cases short with
  | false => exact h.bankWrite1 hm hn _ _
  | true => exact (h.bankWrite1 hm hn _ _).bankWrite1 (bankWrite1_wf hm) (bankWrite1_wf hn) _ _

end

/-- The second result has the next state of the first but for RAM, where bank 0 reads the same. -/
def SameButOtherBanks (r r' : Result) : Prop :=
  ∀ t, r = .next t → ∃ m, r' = .next (t.setRam m) ∧ SameBankZero t.ram m

theorem State.setRam_setStack (s : State) (n : Memory) (sel : StackSel) (S : Stack) :
    (s.setRam n).setStack sel S = (s.setStack sel S).setRam n := by cases sel <;> rfl

section
variable {s : State} {n : Memory} {r r' : Result} {sel : StackSel} {S : Stack}

theorem sameButOtherBanks_of_next {t : State} {m : Memory} (hr : r = .next t) (hr' : r' = .next (t.setRam m))
    (h : SameBankZero t.ram m) : SameButOtherBanks r r' := by
  subst hr
  rintro _ ⟨⟩
  exact ⟨m, hr', h⟩

/-- A meaning that needs the program counter has a next state in a running evaluation only. -/
theorem sameButOtherBanks_running {k : Short → Result}
    (h : ∀ a rest, s.act = a :: rest → SameButOtherBanks (running s k) r') : SameButOtherBanks (running s k) r' := by
  cases hact : s.act with
  | nil => simp [SameButOtherBanks, running_nil hact]
  | cons a rest => exact h a rest hact

/-- A store keeps the rest in step where the two RAMs it leaves agree in bank 0. -/
theorem sameButOtherBanks_of_setStack_setRam {m m' : Memory} (hr : r = .next ((s.setStack sel S).setRam m))
    (hr' : r' = .next (((s.setRam n).setStack sel S).setRam m')) (h : SameBankZero m m') : SameButOtherBanks r r' := by
  rw [State.setRam_setStack] at hr'
  exact sameButOtherBanks_of_next hr hr' h

section
variable (h : SameBankZero s.ram n)
include h

/-- The same stack put in place leaves RAM as it was in each. -/
theorem sameButOtherBanks_of_setStack (hr : r = .next (s.setStack sel S))
    (hr' : r' = .next ((s.setRam n).setStack sel S)) : SameButOtherBanks r r' := by
  rw [State.setRam_setStack] at hr'
  exact sameButOtherBanks_of_next hr hr' (by rwa [State.setStack_ram])

/-- So do the same activations put in place with it. -/
theorem sameButOtherBanks_of_setStack_act {acts : List Activation}
    (hr : r = .next { s.setStack sel S with act := acts })
    (hr' : r' = .next { (s.setRam n).setStack sel S with act := acts }) : SameButOtherBanks r r' := by
  rw [State.setRam_setStack] at hr'
  exact sameButOtherBanks_of_next hr hr' (by rwa [State.setStack_ram])

end

end

section
variable {s : State} {n : Memory} (h : SameBankZero s.ram n) (m : Mode)
include h

theorem unaryOp_sameButOtherBanks (f : Short → Short) :
    SameButOtherBanks (unaryOp m f s) (unaryOp m f (s.setRam n)) :=
  sameButOtherBanks_of_setStack h (unaryOp_eq m s f) (unaryOp_eq m (s.setRam n) f)

theorem binaryOp_sameButOtherBanks (f : Short → Short → Short) :
    SameButOtherBanks (binaryOp m f s) (binaryOp m f (s.setRam n)) :=
  sameButOtherBanks_of_setStack h (binaryOp_eq m s f) (binaryOp_eq m (s.setRam n) f)

theorem compareOp_sameButOtherBanks (rel : Short → Short → Bool) :
    SameButOtherBanks (compareOp m rel s) (compareOp m rel (s.setRam n)) :=
  sameButOtherBanks_of_setStack h (compareOp_eq m s rel) (compareOp_eq m (s.setRam n) rel)

end

/-- Every instruction on canonical RAMs that agree in bank 0 answers the same but for the other banks. -/
theorem exec_sameButOtherBanks {s : State} {n : Memory} (hw : s.ram.wf = true) (hn : n.wf = true)
    (h : SameBankZero s.ram n) (i : Instr) : SameButOtherBanks (exec i s) (exec i (s.setRam n)) := by
  have hmem (w addr) : memRead (s.setRam n).ram w addr = memRead s.ram w addr := h.memRead w addr
  have hzp (w a) : zpRead (s.setRam n).ram w a = zpRead s.ram w a := h.zpRead w a
  unfold exec
  cases i with
  -- shared operations
  | inc m => exact unaryOp_sameButOtherBanks h m _
  | nip m | add m | sub m | mul m | div m | and m | ora m | eor m => exact binaryOp_sameButOtherBanks h m _
  | equ m | neq m | gth m | lth m => exact compareOp_sameButOtherBanks h m _
  -- one stack
  | pop m => exact sameButOtherBanks_of_setStack h (execPop_eq m s) (execPop_eq m (s.setRam n))
  | swp m => exact sameButOtherBanks_of_setStack h (execSwp_eq m s) (execSwp_eq m (s.setRam n))
  | rot m => exact sameButOtherBanks_of_setStack h (execRot_eq m s) (execRot_eq m (s.setRam n))
  | dup m => exact sameButOtherBanks_of_setStack h (execDup_eq m s) (execDup_eq m (s.setRam n))
  | ovr m => exact sameButOtherBanks_of_setStack h (execOvr_eq m s) (execOvr_eq m (s.setRam n))
  | sft m => exact sameButOtherBanks_of_setStack h (execSft_eq m s) (execSft_eq m (s.setRam n))
  -- loads
  | ldz m =>
    have hload := execLdz_eq m (s.setRam n)
    rw [hzp] at hload
    exact sameButOtherBanks_of_setStack h (execLdz_eq m s) hload
  | lda m =>
    have hload := execLda_eq m (s.setRam n)
    rw [hmem] at hload
    exact sameButOtherBanks_of_setStack h (execLda_eq m s) hload
  | ldr m =>
    refine sameButOtherBanks_running fun a rest hact => ?_
    have hload := execLdr_eq m (s := s.setRam n) hact
    rw [hmem] at hload
    exact sameButOtherBanks_of_setStack h (execLdr_eq m hact) hload
  -- one stack and the top activation
  | jci d =>
    exact sameButOtherBanks_running fun _ _ hact =>
      sameButOtherBanks_of_setStack_act h (execJci_eq hact d) (execJci_eq (s := s.setRam n) hact d)
  | jsi d =>
    exact sameButOtherBanks_running fun _ _ hact =>
      sameButOtherBanks_of_setStack_act h (execJsi_eq hact d) (execJsi_eq (s := s.setRam n) hact d)
  | lit b =>
    exact sameButOtherBanks_running fun _ _ hact =>
      sameButOtherBanks_of_setStack_act h (execLit_eq hact b) (execLit_eq (s := s.setRam n) hact b)
  | lit2 v =>
    exact sameButOtherBanks_running fun _ _ hact =>
      sameButOtherBanks_of_setStack_act h (execLit2_eq hact v) (execLit2_eq (s := s.setRam n) hact v)
  | litr b =>
    exact sameButOtherBanks_running fun _ _ hact =>
      sameButOtherBanks_of_setStack_act h (execLitr_eq hact b) (execLitr_eq (s := s.setRam n) hact b)
  | lit2r v =>
    exact sameButOtherBanks_running fun _ _ hact =>
      sameButOtherBanks_of_setStack_act h (execLit2r_eq hact v) (execLit2r_eq (s := s.setRam n) hact v)
  | jmp m =>
    exact sameButOtherBanks_running fun _ _ hact =>
      sameButOtherBanks_of_setStack_act h (execJmp_eq m hact) (execJmp_eq m (s := s.setRam n) hact)
  | jcn m =>
    exact sameButOtherBanks_running fun _ _ hact =>
      sameButOtherBanks_of_setStack_act h (execJcn_eq m hact) (execJcn_eq m (s := s.setRam n) hact)
  | dei m =>
    exact sameButOtherBanks_running fun _ _ hact =>
      sameButOtherBanks_of_setStack_act h (execDei_eq m hact) (execDei_eq m (s := s.setRam n) hact)
  -- the activations alone, or both stacks
  | brk =>
    exact sameButOtherBanks_running fun _ _ hact =>
      sameButOtherBanks_of_next (execBrk_eq hact) (execBrk_eq (s := s.setRam n) hact) h
  | jmi d =>
    exact sameButOtherBanks_running fun _ _ hact =>
      sameButOtherBanks_of_next (execJmi_eq hact d) (execJmi_eq (s := s.setRam n) hact d) h
  | sth m =>
    have hsth := execSth_eq m (s.setRam n)
    simp only [State.setRam_setStack, State.setRam_stack] at hsth
    exact sameButOtherBanks_of_next (execSth_eq m s) hsth (by simpa using h)
  | jsr m =>
    refine sameButOtherBanks_running fun a rest hact => ?_
    have hjsr := execJsr_eq m (s := s.setRam n) hact
    simp only [State.setRam_setStack, State.setRam_stack] at hjsr
    exact sameButOtherBanks_of_next (execJsr_eq m hact) hjsr (by simpa using h)
  -- stores and device output
  | stz m =>
    exact sameButOtherBanks_of_setStack_setRam (execStz_eq m s) (execStz_eq m (s.setRam n)) (h.zpWrite hw hn _ _ _)
  | sta m =>
    exact sameButOtherBanks_of_setStack_setRam (execSta_eq m s) (execSta_eq m (s.setRam n)) (h.memWrite hw hn _ _ _)
  | str m =>
    exact sameButOtherBanks_running fun _ _ hact =>
      sameButOtherBanks_of_setStack_setRam (execStr_eq m hact) (execStr_eq m (s := s.setRam n) hact)
        (h.memWrite hw hn _ _ _)
  | deo m =>
    refine sameButOtherBanks_running fun a rest hact => ?_
    have hdeo := execDeo_eq m (s := s.setRam n) hact
    simp only [State.setRam_setStack, State.setRam_stack] at hdeo
    exact sameButOtherBanks_of_next (execDeo_eq m hact) hdeo (by simpa using h)

/-- Settles O19: the frame of the other banks, and the two runs in step. -/
theorem instructionsReachBankZeroOnly : Obligations.InstructionsReachBankZeroOnly :=
  ⟨fun _ _ _ _ off hnext hb => exec_other_bank hnext hb off, fun _ _ hw hn h =>
    ⟨SameBankZero.fetch h, fun i => exec_sameButOtherBanks hw hn h i⟩⟩

end Sys2Proof.Machine
end

section
/-! PROOFS. Device input (45_memory_device.md R206; 60_exceptions.md R243): DEI up to its first intercept, the answers
one by one, queued or free, and a whole DEI. -/

namespace Sys2Proof.Machine

/-- Settles O44, from the closed form of DEI. -/
theorem deviceInputAsksItsFirstByte : Obligations.DeviceInputAsksItsFirstByte :=
  ⟨baseEncoded_decodeBase (n := 0x16) (by decide),
    fun m _ _ _ hact => stackAndAct_of_next_after (execDei_eq m hact) (Nat.zero_le _)⟩

/-! ### One answer -/

section
variable {s u : State} {pc : Short} {rest : List Activation} {addr hi b : Byte} {dest : StackSel}

theorem act_of_drawInput (hdraw : drawInput s addr = (b, u)) : u.act = s.act := by rw [← drawInput_act s addr, hdraw]

variable (hfault : s.fault = none) (hdraw : drawInput s addr = (b, u))
include hfault hdraw

/-- The answer of a byte DEI is pushed and the record is done. -/
theorem step_inByte (hact : s.act = { pc := pc, susp := some (.inByte addr dest) } :: rest) :
    step s = .next { u.setStack dest ((u.stack dest).after false 0 [b]) with act := { pc := pc } :: rest } := by
  have hu := (act_of_drawInput hdraw).trans hact
  rw [step_suspended hfault hact rfl, ← Stack.push1_after]
  simp only [interceptStep, answerInput, hdraw, State.pushByte_eq,
    State.setSusp_cons (State.setStack_act .. |>.trans hu)]

/-- The first answer of a short DEI is recorded as the high byte, and the low one is asked. -/
theorem step_inHigh (hact : s.act = { pc := pc, susp := some (.inHigh addr dest) } :: rest) :
    step s = .next { u with act := { pc := pc, susp := some (.inLow (addr + 1) b dest) } :: rest } := by
  have hu := (act_of_drawInput hdraw).trans hact
  rw [step_suspended hfault hact rfl]
  simp only [interceptStep, answerInput, hdraw, State.setSusp_cons hu]

/-- The second answer is pushed above the recorded high byte. -/
theorem step_inLow (hact : s.act = { pc := pc, susp := some (.inLow addr hi dest) } :: rest) :
    step s = .next { u.setStack dest ((u.stack dest).after false 0 [hi, b]) with act := { pc := pc } :: rest } := by
  have hu := (act_of_drawInput hdraw).trans hact
  have hpush : (u.stack dest).pushW true (shortOf hi b) = (u.stack dest).after false 0 [hi, b] := by
    rw [Stack.pushW_after, bytesOf, if_pos rfl, hiByte_shortOf, loByte_shortOf]
  rw [step_suspended hfault hact rfl, ← hpush]
  simp only [interceptStep, answerInput, hdraw, State.pushW_eq,
    State.setSusp_cons (State.setStack_act .. |>.trans hu)]

end

/-! ### Free answers (60_exceptions.md R243, decision D9) -/

theorem State.stack_withDraws (s : State) (n : Nat) (sel : StackSel) :
    ({ s with draws := n } : State).stack sel = s.stack sel := by cases sel <;> rfl

/-- Every claim about free bytes pushed at the end of a DEI follows from the step's closed form. -/
theorem freeInput_of_next_after {r : Result} {s : State} {dest : StackSel} {bs : List Byte} {acts : List Activation}
    (hfault : s.fault = none) (hinputs : s.inputs = []) (hlen : bs.length ≤ 256)
    (h : r = .next { ({ s with draws := s.draws + 1 } : State).setStack dest
      ((({ s with draws := s.draws + 1 } : State).stack dest).after false 0 bs) with act := acts }) :
    ∃ t, r = .next t ∧ (s.stack dest).Became false 0 bs (t.stack dest) ∧ t.act = acts ∧ t.draws = s.draws + 1 ∧
      t.stack dest.other = s.stack dest.other ∧ t.ram = s.ram ∧ t.dev = s.dev ∧ t.fault = none ∧ t.inputs = [] ∧
      t.calls = s.calls := by
  obtain ⟨t, ht, hframe, hstack, hact⟩ := stackAndAct_of_next_after h hlen
  have hother := hframe.other
  rw [State.stack_withDraws] at hstack hother
  exact ⟨t, ht, hstack, hact, hframe.outside.draws, hother, hframe.ram, hframe.dev, hframe.outside.fault.trans hfault,
    hframe.outside.inputs.trans hinputs, hframe.outside.calls⟩

/-- Settles O46: with an empty queue the draw is the free value, and counts. -/
theorem unqueuedInputIsTheFreeAnswer : Obligations.UnqueuedInputIsTheFreeAnswer := by
  intro s pc rest addr hi dest hfault hinputs
  have hdraw := drawInput_nil hinputs addr
  exact ⟨fun hact => freeInput_of_next_after hfault hinputs (by simp) (step_inByte hfault hdraw hact),
    step_inHigh hfault hdraw,
    fun hact => freeInput_of_next_after hfault hinputs (by simp) (step_inLow hfault hdraw hact)⟩

/-! ### A whole DEI -/

/-- Pops with their keep restore, then pushes, are one operation. -/
theorem Stack.Became.trans {S T U : Stack} {keep : Bool} {n : Nat} {bs : List Byte} (hpop : S.Became keep n [] T)
    (hpush : T.Became false 0 bs U) : S.Became keep n bs U := by
  have hbase : T.baseAfter false 0 = S.baseAfter keep n := by simp [Stack.baseAfter, hpop.ptr]
  obtain ⟨hptr, hnew, hold⟩ := hpush
  simp only [hbase] at hptr hnew hold
  exact ⟨hptr, hnew, fun i hi => (hold i hi).trans (hpop.old i (Nat.zero_le _))⟩

theorem State.stack_withInputs (s : State) (bs : List Byte) (sel : StackSel) :
    ({ s with inputs := bs } : State).stack sel = s.stack sel := by cases sel <;> rfl

theorem widthOf_le_two (short : Bool) : widthOf short ≤ 2 := by cases short <;> decide

/-- The queued answers of a pending DEI are pushed, the first one asked first. -/
theorem run_queued_input {s : State} {short : Bool} {sel : StackSel} {pc : Short} {a : Byte} {rest : List Activation}
    {answers later : List Byte} (hfault : s.fault = none)
    (hact : s.act = { pc := pc, susp := some (if short then .inHigh a sel else .inByte a sel) } :: rest)
    (hinputs : s.inputs = answers ++ later) (hlen : answers.length = widthOf short) :
    core.run (widthOf short) s = .next { ({ s with inputs := later } : State).setStack sel
      ((({ s with inputs := later } : State).stack sel).after false 0 answers) with act := { pc := pc } :: rest } := by
  cases short with
  | false =>
    obtain ⟨b, rfl⟩ := List.length_eq_one_iff.mp hlen
    exact run_succ (step_inByte hfault (drawInput_cons hinputs a) hact) 0
  | true =>
    obtain ⟨hi, lo, rfl⟩ := List.length_eq_two.mp hlen
    have hhigh := step_inHigh hfault (drawInput_cons hinputs a) hact
    have hlow := step_inLow (rest := rest) (pc := pc) (hi := hi) (dest := sel)
      (s := { s with act := { pc := pc, susp := some (.inLow (a + 1) hi sel) } :: rest, inputs := lo :: later })
      hfault (drawInput_cons rfl (a + 1)) rfl
    refine (run_succ hhigh 1).trans ((run_succ hlow 0).trans ?_)
    cases sel <;> rfl

/-- Settles O45: the step of DEI, then one answer for each byte, pushed where the address was. -/
theorem deviceInputPushesTheAnswers : Obligations.DeviceInputPushesTheAnswers := by
  intro m s pc rest answers later hruns hbyte hinputs hlen
  obtain ⟨s1, hdei, hframe1, hpop, hact1⟩ :=
    deviceInputAsksItsFirstByte.2 m { s with act := { pc := pc + 1 } :: rest } _ rest rfl
  have hstep := (step_opcodeOf (n := 0x16) (by decide) hruns hbyte).trans hdei
  have hfault1 : s1.fault = none := hframe1.outside.fault.trans hruns.1
  have hanswers := run_queued_input hfault1 hact1 (hframe1.outside.inputs.trans hinputs) hlen
  obtain ⟨t, hrun, hframe, hpush, hact⟩ :=
    stackAndAct_of_next_after hanswers (hlen.trans_le ((widthOf_le_two _).trans (by decide)))
  have hother := hframe.other.trans ((State.stack_withInputs ..).trans hframe1.other)
  rw [State.stack_withInputs] at hpush
  rw [State.stack_withAct] at hpop hother
  rw [Nat.add_comm]
  exact ⟨t, (run_succ hstep _).trans hrun, hpop.trans hpush, hother, hframe.ram.trans hframe1.ram,
    hframe.dev.trans hframe1.dev, ⟨hframe.outside.fault.trans hfault1, hact⟩, hframe.outside.inputs,
    hframe.outside.calls.trans hframe1.outside.calls, hframe.outside.draws.trans hframe1.outside.draws⟩

end Sys2Proof.Machine
end

section
/-! PROOFS. Device output (45_memory_device.md R207; 60_exceptions.md R244 to R246): DEO up to its first intercept, the
return of its handler, a whole DEO, and the byte its handler cannot keep (70_reset_and_hazards.md R282). -/

namespace Sys2Proof.Machine

/-! ### The device file (20_memory.md R60) -/

theorem State.devRead1_devWrite1_eq_ite (s : State) (a b x : Byte) :
    (s.devWrite1 a b).devRead1 x = if x = a then b else s.devRead1 x := by
  split
  · next h => rw [h, State.devRead1_devWrite1]
  · next h => exact State.devRead1_devWrite1_ne _ _ h

theorem deviceBecame_devWrite1 (s : State) (a b : Byte) : DeviceBecame s a b (s.devWrite1 a b) :=
  ⟨State.devRead1_devWrite1 .., fun _ hx => State.devRead1_devWrite1_ne _ _ hx⟩

/-! ### Up to the first intercept -/

section
variable (s : State) (sel : StackSel) (S : Stack) (a b : Byte) (acts : List Activation)

theorem State.setStack_devWrite1_withAct_stack :
    ({ (s.setStack sel S).devWrite1 a b with act := acts } : State).stack sel = S := by cases sel <;> rfl

theorem State.setStack_devWrite1_withAct_stack_other :
    ({ (s.setStack sel S).devWrite1 a b with act := acts } : State).stack sel.other = s.stack sel.other := by
  cases sel <;> rfl

theorem deviceBecame_setStack_devWrite1_withAct :
    DeviceBecame s a b { (s.setStack sel S).devWrite1 a b with act := acts } := by
  have h := deviceBecame_devWrite1 (s.setStack sel S) a b
  simp only [DeviceBecame, State.devRead1_setStack] at h
  exact h

end

/-- Settles O47, from the closed form of DEO. -/
theorem deviceOutputStoresBeforeItsFirstCall : Obligations.DeviceOutputStoresBeforeItsFirstCall := by
  refine ⟨baseEncoded_decodeBase (n := 0x17) (by decide), fun m s act rest hact => ⟨_, execDeo_eq m hact, ?popped,
    deviceBecame_setStack_devWrite1_withAct .., rfl, State.setStack_devWrite1_withAct_stack_other .., s.setStack_ram ..,
    ((outsideUnchanged_setStack ..).devWrite1 _ _).withAct _⟩⟩
  case popped =>
    rw [State.setStack_devWrite1_withAct_stack]
    exact Stack.after_became _ _ _ _ (Nat.zero_le _)

/-! ### The handler returns (40_eval_loop.md R112) -/

section
variable {s : State} {pc : Short} {rest : List Activation} {addr low lowAddr : Byte} {cs : List PortCall}
  (hfault : s.fault = none) (hcalls : s.calls = .done :: cs)
include hfault hcalls

theorem step_outByte_done (hact : s.act = { pc := pc, susp := some (.outByte addr) } :: rest) :
    step s = .next { s with act := { pc := pc } :: rest, calls := cs } := by
  rw [step_call (.inr ⟨hfault, _, rest, hact, rfl⟩) hcalls]
  simp [applyCall, returnFromOutput, State.setSusp, hact]

theorem step_outHigh_done (hact : s.act = { pc := pc, susp := some (.outHigh addr low lowAddr) } :: rest) :
    step s = .next { s.devWrite1 lowAddr low with
      act := { pc := pc, susp := some (.outByte lowAddr) } :: rest, calls := cs } := by
  rw [step_call (.inr ⟨hfault, _, rest, hact, rfl⟩) hcalls]
  simp [applyCall, returnFromOutput, State.setSusp, State.devWrite1, hact]

end

/-! ### A whole DEO -/

theorem DeviceBecame.devRead1_eq_ite {s t : State} {a b : Byte} (h : DeviceBecame s a b t) (x : Byte) :
    t.devRead1 x = if x = a then b else s.devRead1 x := by
  split
  · next hx => rw [hx, h.1]
  · next hx => exact h.2 x hx

/-- The returns of the handler bring a pending DEO to its end, the low byte of a short written between them. -/
theorem run_returns {s : State} {short : Bool} {pc : Short} {rest : List Activation} {a low : Byte} {cs : List PortCall}
    (hfault : s.fault = none)
    (hact : s.act = { pc := pc, susp := some (if short then .outHigh a low (a + 1) else .outByte a) } :: rest)
    (hcalls : s.calls = List.replicate (widthOf short) .done ++ cs) :
    ∃ t, core.run (widthOf short) s = .next t ∧
      (∀ x, t.devRead1 x = if short = true ∧ x = a + 1 then low else s.devRead1 x) ∧
      (∀ sel, t.stack sel = s.stack sel) ∧ t.ram = s.ram ∧ t.RunsAt pc rest ∧ t.calls = cs ∧ t.inputs = s.inputs ∧
      t.draws = s.draws := by
  cases short with
  | false =>
    have hreturn := step_outByte_done hfault hcalls hact
    exact ⟨_, run_succ hreturn 0, fun x => (if_neg (by simp)).symm, by rintro ⟨⟩ <;> rfl, rfl, ⟨hfault, rfl⟩, rfl,
      rfl, rfl⟩
  | true =>
    have hhigh := step_outHigh_done hfault hcalls hact
    have hlow := step_outByte_done (s := { s.devWrite1 (a + 1) low with
      act := { pc := pc, susp := some (.outByte (a + 1)) } :: rest, calls := .done :: cs }) hfault rfl rfl
    have hdev (x) := (deviceBecame_devWrite1 s (a + 1) low).devRead1_eq_ite x
    exact ⟨_, (run_succ hhigh 1).trans (run_succ hlow 0), fun x => (hdev x).trans (by simp), by rintro ⟨⟩ <;> rfl, rfl,
      ⟨hfault, rfl⟩, rfl, rfl, rfl⟩

/-- Settles O48: the step of DEO, then one return for each byte. -/
theorem deviceOutputWritesEachByteOnce : Obligations.DeviceOutputWritesEachByteOnce := by
  intro m s pc rest cs hruns hbyte hcalls a
  obtain ⟨s1, hdeo, hpop, hdev1, hact1, hother, hram1, hout⟩ :=
    deviceOutputStoresBeforeItsFirstCall.2 m { s with act := { pc := pc + 1 } :: rest } _ rest rfl
  have hstep := (step_opcodeOf (n := 0x17) (by decide) hruns hbyte).trans hdeo
  obtain ⟨t, hrun, hdev, hstack, hram, hat, hcs, hinputs, hdraws⟩ :=
    run_returns (hout.fault.trans hruns.1) hact1 (hout.calls.trans hcalls)
  simp only [State.stack_withAct] at hpop hother hdev1 hdev
  have hwhole : core.run (1 + widthOf m.short) s = .next t := by
    rw [Nat.add_comm]
    exact (run_succ hstep _).trans hrun
  refine ⟨t, hwhole, (hstack _) ▸ hpop, fun x => ?_, (hstack _).trans hother,
    hram.trans hram1, hat, hcs, hinputs.trans hout.inputs, hdraws.trans hout.draws⟩
  rw [hdev, hdev1.devRead1_eq_ite, State.devRead1_withAct]
  cases m.short <;> simp [Stack.itemAt, a]

/-- Settles O49: the handler's write is the first step, its return the second, which writes the same byte again. -/
theorem lowByteOfShortOutputOverwritesTheHandler : Obligations.LowByteOfShortOutputOverwritesTheHandler := by
  intro s pc rest addr low lowAddr x cs hfault hact hcalls
  have hwrite := step_call (.inr ⟨hfault, _, rest, hact, rfl⟩) hcalls
  have hreturn := step_outHigh_done (s := { s with calls := .done :: cs }.devWrite false lowAddr x) hfault rfl hact
  refine ⟨_, (run_succ hwrite 1).trans (run_succ hreturn 0), ⟨?_, fun y hy => ?_⟩, rfl, rfl, rfl, rfl, rfl, hfault⟩
  · exact State.devRead1_devWrite1 ..
  · exact (State.devRead1_devWrite1_ne _ _ hy).trans (State.devRead1_devWrite1_ne _ _ hy)

end Sys2Proof.Machine
end

section
/-! PROOFS. The host port (60_exceptions.md R249): its reads, its writes to RAM and to the device file, and its stack
calls. -/

namespace Sys2Proof.Machine

/-! ### Reads -/

theorem PortAnswer.ofWidth_shortOf (short : Bool) (hi lo b : Byte) :
    PortAnswer.ofWidth short (if short then shortOf hi lo else zextByte b) =
      if short then .short (shortOf hi lo) else .byte b := by
  cases short with
  | false => exact congrArg PortAnswer.byte (loByte_zextByte b)
  | true => rfl

/-- The reads of the host port have no effect. -/
theorem applyCall_read {c : PortCall} {short : Bool} {bank : Bank} {off : Short} {a : Byte} {sel : StackSel}
    (hc : c ∈ [.bankRead short bank off, .devRead short a, .getPointer sel, .peek sel a, .snapshot, .snapshotStacks])
    (s : State) : applyCall c s = .next s := by
  simp only [List.mem_cons, List.not_mem_nil, or_false] at hc
  rcases hc with rfl | rfl | rfl | rfl | rfl | rfl <;> rfl

/-- Settles O50: the step is the call, which has no effect; each answer is what the accessor reads. -/
theorem portReadsChangeNothing : Obligations.PortReadsChangeNothing := by
  intro s c cs short bank off a sel hturn hcalls hc
  exact ⟨(step_call hturn hcalls).trans (applyCall_read hc _), PortAnswer.ofWidth_shortOf ..,
    PortAnswer.ofWidth_shortOf .., rfl, rfl, rfl, rfl⟩

/-! ### Writes -/

theorem State.devWrite_eq (s : State) (short : Bool) (a : Byte) (v : Short) :
    s.devWrite short a v = { s with dev := (s.devWrite short a v).dev } := by cases short <;> rfl

theorem State.devRead1_devWrite_eq_ite (s : State) (short : Bool) (a : Byte) (v : Short) (x : Byte) :
    (s.devWrite short a v).devRead1 x =
      if short then if x = a + 1 then loByte v else if x = a then hiByte v else s.devRead1 x
      else if x = a then loByte v else s.devRead1 x := by
  cases short with
  | false => exact s.devRead1_devWrite1_eq_ite ..
  | true =>
    rw [State.devWrite, if_pos rfl, State.devRead1_devWrite1_eq_ite, State.devRead1_devWrite1_eq_ite, if_pos rfl]

/-- Settles O51: what RAM became, and the device file byte by byte. -/
theorem portWritesStoreBigEndian : Obligations.PortWritesStoreBigEndian := by
  intro s cs short bank off a v hturn hw
  refine ⟨fun hcalls => ⟨_, step_call hturn hcalls, memoryBecame_bankWrite hw short v⟩, fun hcalls => ?_⟩
  have hstep := step_call hturn hcalls
  rw [applyCall, State.devWrite_eq] at hstep
  exact ⟨_, hstep, State.devRead1_devWrite_eq_ite { s with calls := cs } short a v⟩

/-! ### Stacks -/

theorem fault_eq_none_of_turn {s : State} (hturn : s.Idle ∨ s.HandlerTurn) : s.fault = none :=
  hturn.elim And.left And.left

theorem State.stack_withCalls (s : State) (cs : List PortCall) (sel : StackSel) :
    ({ s with calls := cs } : State).stack sel = s.stack sel := by cases sel <;> rfl

/-- Every claim about a stack call of the host port follows from the stack it puts in place. -/
theorem portStack_of_next {r : Result} {s : State} {cs : List PortCall} {sel : StackSel} {S : Stack}
    (hturn : s.Idle ∨ s.HandlerTurn) (h : r = .next (({ s with calls := cs } : State).setStack sel S)) :
    ∃ t, r = .next t ∧ t.stack sel = S ∧ t.calls = cs ∧ t.act = s.act ∧ t.stack sel.other = s.stack sel.other ∧
      t.ram = s.ram ∧ t.dev = s.dev ∧ t.fault = none ∧ t.inputs = s.inputs ∧ t.draws = s.draws := by
  refine ⟨_, h, State.setStack_stack .., State.setStack_calls .., State.setStack_act .., ?_, State.setStack_ram ..,
    State.setStack_dev .., ?_, State.setStack_inputs .., State.setStack_draws ..⟩
  · rw [State.setStack_stack_other, State.stack_withCalls]
  · rw [State.setStack_fault, fault_eq_none_of_turn hturn]

theorem Stack.popW_snd (S : Stack) (short : Bool) : (S.popW short).2 = S.after false (widthOf short) [] := by
  rw [Stack.popW_item]
  rfl

theorem portAnswer_pop (s : State) (sel : StackSel) (short : Bool) : portAnswer (.pop sel short) s =
    if short then .short ((s.stack sel).itemAt true 0) else .byte ((s.stack sel).peek 0) := by
  rw [portAnswer, Stack.popW_eq]
  exact PortAnswer.ofWidth_shortOf ..

/-- Settles O52: each of the three calls puts one stack in place, the fourth both. -/
theorem portStackCallsPushPopAndSetThePointer : Obligations.PortStackCallsPushPopAndSetThePointer := by
  intro s cs sel short v p hturn
  refine ⟨fun hcalls => ?pointer, fun hcalls => ?push, fun hcalls => ?pop, fun hcalls => step_call hturn hcalls⟩
  case pointer =>
    have hstep := step_call hturn hcalls
    rw [applyCall, State.stack_withCalls] at hstep
    exact portStack_of_next hturn hstep
  case push =>
    have hstep := step_call hturn hcalls
    rw [applyCall, State.pushW_eq, State.stack_withCalls, Stack.pushW_after] at hstep
    obtain ⟨t, hnext, hstack, hframe⟩ := portStack_of_next hturn hstep
    exact ⟨t, hnext, hstack ▸ Stack.after_became _ _ _ _ ((bytesOf_length_le ..).trans (by decide)), hframe⟩
  case pop =>
    have hstep := step_call hturn hcalls
    rw [applyCall, State.stack_withCalls, Stack.popW_snd] at hstep
    obtain ⟨t, hnext, hstack, hcs, hframe⟩ := portStack_of_next hturn hstep
    exact ⟨t, hnext, hstack ▸ Stack.after_became _ _ _ _ (Nat.zero_le _), hcs, portAnswer_pop .., hframe⟩

end Sys2Proof.Machine
end

section
/-! PROOFS. The boot image and the resets (70_reset_and_hazards.md R270, R271, R275): the image lies linearly from the
reset vector, and what of RAM a reset leaves below and after it. -/

namespace Sys2Proof.Machine

/-! ### The boot image (70_reset_and_hazards.md R275) -/

/-- The part of the image for bank `i`, from bank 1 on. -/
def bankChunk (img : List Byte) (i : Nat) : List Byte :=
  (img.drop (0xFF00 + (i - 1) * Config.bankBytes)).take Config.bankBytes

/-- Byte `o` of the part for bank `i` is the byte of the image for the linear index `i * 65536 + o`, if there is one. -/
theorem bankChunk_lt_and_getElem? (img : List Byte) {i o : Nat} (hi : 1 ≤ i) (ho : o < 65536) :
    (o < (bankChunk img i).length ↔ i * 65536 + o - 0x100 < img.length) ∧
      (bankChunk img i)[o]? = img[i * 65536 + o - 0x100]? := by
  have hindex : 0xFF00 + (i - 1) * 65536 + o = i * 65536 + o - 0x100 := by omega
  constructor
  · simp only [bankChunk, Config.bankBytes, List.length_take, List.length_drop]
    omega
  · rw [bankChunk, Config.bankBytes, List.getElem?_take_of_lt ho, List.getElem?_drop, hindex]

theorem loadBanks_cons (img : List Byte) (i : Nat) (is : List Nat) (m : Memory) :
    loadBanks img (i :: is) m = loadBanks img is (bulkLoad m (bankChunk img i) (BitVec.ofNat 4 i) 0) := by
  rw [loadBanks, bankChunk]

theorem bank_eq_ofNat_iff {b : Bank} {i : Nat} (hi : i < 16) : b = BitVec.ofNat 4 i ↔ b.toNat = i := by
  rw [← BitVec.toNat_inj, BitVec.toNat_ofNat, Nat.mod_eq_of_lt hi]

/-- The load of bank `i` puts the image's part for it there and leaves the other banks alone. -/
theorem bankRead1_bulkLoad_bankChunk {m : Memory} (hw : m.wf = true) (img : List Byte) {i : Nat} (hi : i < 16)
    (b : Bank) (o : Short) : bankRead1 (bulkLoad m (bankChunk img i) (BitVec.ofNat 4 i) 0) b o =
      if b.toNat = i ∧ o.toNat < (bankChunk img i).length then (bankChunk img i)[o.toNat]?.getD 0
      else bankRead1 m b o := by
  rw [bankRead1_bulkLoad _ _ _ hw]
  exact if_congr (and_congr (bank_eq_ofNat_iff hi) (and_iff_right (Nat.zero_le _))) rfl rfl

/-- After the loading of some banks each of them holds its part of the image, as far as that goes. -/
theorem bankRead1_loadBanks (img : List Byte) (b : Bank) (o : Short) {is : List Nat} {m : Memory}
    (hw : m.wf = true) (his : ∀ i ∈ is, i < 16) : bankRead1 (loadBanks img is m) b o =
      if b.toNat ∈ is ∧ o.toNat < (bankChunk img b.toNat).length
      then (bankChunk img b.toNat)[o.toNat]?.getD 0 else bankRead1 m b o := by
  induction is generalizing m with
  | nil => simp [loadBanks]
  | cons i is ih =>
    obtain ⟨hi, his⟩ := List.forall_mem_cons.mp his
    rw [loadBanks_cons, ih (bulkLoad_wf _ hw) his, bankRead1_bulkLoad_bankChunk hw img hi]
    by_cases hb : b.toNat = i
    · subst hb
      by_cases ho : o.toNat < (bankChunk img b.toNat).length
      · rw [if_pos (And.intro rfl ho), ite_self, if_pos (And.intro List.mem_cons_self ho)]
      · rw [if_neg fun h => ho h.2, if_neg fun h => ho h.2, if_neg fun h => ho h.2]
    · simp [hb]

/-- The image lies linearly from the reset vector on, and what does not fit is dropped. -/
theorem bankRead1_loadImage {m : Memory} (hw : m.wf = true) (img : List Byte) (b : Bank) (o : Short) :
    bankRead1 (loadImage m img) b o =
      if 0x100 ≤ b.toNat * 65536 + o.toNat ∧ b.toNat * 65536 + o.toNat - 0x100 < img.length
      then img[b.toNat * 65536 + o.toNat - 0x100]?.getD 0 else bankRead1 m b o := by
  have ho : o.toNat < 65536 := o.isLt
  have hb : b.toNat < 16 := b.isLt
  have hmem : b.toNat ∈ [1, 2, 3, 4, 5, 6, 7, 8, 9, 10, 11, 12, 13, 14, 15] ↔ 1 ≤ b.toNat := by
    simp only [List.mem_cons, List.not_mem_nil, or_false]
    omega
  have hvector : Config.resetVector.toNat = 0x100 := rfl
  have hzero : b = 0 ↔ b.toNat = 0 := BitVec.toNat_inj.symm
  rw [loadImage, bankRead1_loadBanks img b o (bulkLoad_wf _ hw) (by decide), bankRead1_bulkLoad _ _ _ hw]
  simp only [hmem, hvector, hzero, List.length_take]
  by_cases hb0 : 1 ≤ b.toNat
  · obtain ⟨hlen, hget⟩ := bankChunk_lt_and_getElem? img hb0 ho
    rw [hget]
    have hoff : ¬ (b.toNat = 0 ∧ 0x100 ≤ o.toNat ∧ o.toNat - 0x100 < min 0xFF00 img.length) := fun h => by omega
    rw [if_neg hoff]
    exact if_congr (and_congr (by omega) hlen) rfl rfl
  · have hindex : b.toNat * 65536 + o.toNat = o.toNat := by omega
    rw [if_neg fun h => hb0 h.1, hindex, List.getElem?_take_of_lt (by omega)]
    exact if_congr (by omega) rfl rfl

/-- Settles O54: the layout, and the step of the queued call. -/
theorem bootImageLiesLinearlyFromTheResetVector : Obligations.BootImageLiesLinearlyFromTheResetVector :=
  ⟨fun _ img bank off hw => bankRead1_loadImage hw img bank off, fun _ _ _ hturn hcalls => step_call hturn hcalls⟩

/-! ### The resets (70_reset_and_hazards.md R270, R271) -/

/-- What a reset leaves in RAM: the image from the reset vector on with zeroes after it, and below the reset vector what
was there, if that is preserved. -/
theorem bankRead1_loadImage_zeroRam {m : Memory} (hw : m.wf = true) (preserve : Bool) (img : List Byte) (b : Bank)
    (o : Short) : bankRead1 (loadImage (zeroRam m preserve) img) b o =
      if 0x100 ≤ b.toNat * 65536 + o.toNat then img[b.toNat * 65536 + o.toNat - 0x100]?.getD 0
      else if preserve then bankRead1 m b o else 0x00 := by
  have hlow : b.toNat * 65536 + o.toNat < 0x100 ↔ b = 0 ∧ o.toNat < 0x100 := ramKey_lt_lowBytes
  rw [bankRead1_loadImage (zeroRam_wf _ hw), bankRead1_zeroRam]
  simp only [← hlow]
  by_cases hk : 0x100 ≤ b.toNat * 65536 + o.toNat
  · rw [if_pos hk, if_neg (c := preserve = true ∧ _) fun h => Nat.not_lt.mpr hk h.2]
    split
    · rfl
    · next hnot =>
      rw [List.getElem?_eq_none (Nat.not_lt.mp fun h => hnot ⟨hk, h⟩)]
      rfl
  · rw [if_neg fun h => hk h.1, if_neg hk]
    exact if_congr (and_iff_left (Nat.not_le.mp hk)) rfl rfl

/-- Settles O56: nothing is preserved. -/
theorem hardResetZeroesAndLoads : Obligations.HardResetZeroesAndLoads := by
  intro s img cs hturn hw hcalls
  exact ⟨_, step_call hturn hcalls, bankRead1_loadImage_zeroRam hw false img, s.devZero_devRead1,
    fun sel i => by simp, rfl, rfl, rfl⟩

/-- Settles O57: the bytes below the reset vector are preserved. -/
theorem softResetKeepsOnlyTheZeroPage : Obligations.SoftResetKeepsOnlyTheZeroPage := by
  intro s img cs hturn hw hcalls
  exact ⟨_, step_call hturn hcalls, bankRead1_loadImage_zeroRam hw true img, s.devZero_devRead1,
    fun sel i => by simp, rfl, rfl, rfl⟩

end Sys2Proof.Machine
end

section
/-! PROOFS. The ends of a stack (70_reset_and_hazards.md R280; 10_state.md R29): pushes and pops past them wrap. -/

namespace Sys2Proof.Machine

/-- 256 pushes bring the pointer back. -/
theorem Stack.pushAll_ptr_of_length_eq (S : Stack) {bs : List Byte} (h : bs.length = 256) :
    (S.pushAll bs).ptr = S.ptr := by
  rw [Stack.pushAll_ptr, h]
  exact BitVec.add_zero _

/-- Settles O59: the byte pushed after 256 others goes where the first of them lies, all others staying. -/
theorem pushesPastTheEndWrapAndOverwrite : Obligations.PushesPastTheEndWrapAndOverwrite := by
  refine ⟨fun S bs last hlen => ?_, fun S b hptr => ?_, fun S hptr => ?_⟩
  · have hptr := S.pushAll_ptr_of_length_eq hlen
    have hpush : (bs ++ [last]).foldl Stack.push1 S = (S.pushAll bs).push1 last := S.pushAll_append bs [last]
    rw [hpush]
    refine ⟨?_, ?_, fun j hj hj0 => ?_⟩
    · rw [Stack.push1_ptr, hptr]
    · rw [← hptr, Stack.push1_cell_self]
    · have hne : S.ptr + BitVec.ofNat 8 j ≠ (S.pushAll bs).ptr := by
        rw [hptr]
        bv_omega
      have hlt : j < bs.length := by omega
      rw [Stack.push1_cell_ne _ _ hne, Stack.pushAll_cell_new _ _ _ hlt hlen.le, List.getElem?_eq_getElem hlt]
  · exact ⟨by rw [Stack.push1_ptr, hptr]; rfl, hptr ▸ S.push1_cell_self b⟩
  · have hbelow : S.pop1.2.ptr = 0xFF := by rw [S.pop1_snd_ptr, hptr]; rfl
    exact ⟨hbelow, congrArg S.cell hbelow⟩

end Sys2Proof.Machine
end
